-- ==== Sys2Proof/Word.lean ====
section
/-!
DEFINITION. The word types of the TextDebugger decoder block.

`BitVec` is used where the spec treats a value as bits: registers, the program counter, constants and
addresses (64 bits, R7, R9), bytes of the image, and the 4-bit nibbles of an instruction (R61).
`uint(v)` of R11 is `v.toNat` and `sint(v)` is `v.toInt`.
-/

namespace Sys2Proof

/-- A 64-bit value: a register, a constant or an address (R7 `XLEN`, R9, R11). -/
abbrev Word := BitVec 64

/-- One byte of the memory image (R40). -/
abbrev Byte := BitVec 8

/-- A 4-bit field of an instruction: a class, a function code or a register identifier (R61). -/
abbrev Nibble := BitVec 4

/-- `INT64_MIN`, the most negative 64-bit value (41_arith.md). -/
abbrev int64Min : Word := 0x8000000000000000#64

/-- Minus one, as a 64-bit value (41_arith.md). -/
abbrev minusOne : Word := 0xFFFFFFFFFFFFFFFF#64

end Sys2Proof
end

