-- ==== Sys2Proof/Config.lean ====
section
/-!
DEFINITION. The parameters of the model (R8): what one machine fixes for good.

Every parameter that R8 gives a default has that default here. `POP_SP_RESULT` has none: it is OPEN (R130), so it
is a constant without a body, and a theorem about it holds for each of its three values.
-/

namespace Sys2Proof

/-- `DIV_OVERFLOW_POLICY` (R8, R112): what `INT64_MIN / -1` and `INT64_MIN % -1` do. -/
inductive DivOverflowPolicy where
  /-- `FAIL`: the execution failure DIV_OVERFLOW, nothing written. -/
  | fail
  /-- `WRAP`: the quotient is `INT64_MIN` and the remainder is 0. -/
  | wrap
deriving DecidableEq, Repr, Inhabited

/-- `POP_SP_RESULT` (R8, R130): what `popq` of the stack pointer leaves in it. -/
inductive PopSpResult where
  /-- `MEM`: the value popped. -/
  | mem
  /-- `MEM_PLUS_8`: the value popped, plus 8. -/
  | memPlus8
  /-- `OLD_PLUS_8`: the old stack pointer, plus 8. -/
  | oldPlus8
deriving DecidableEq, Repr, Inhabited

namespace Config

/-- `SP_INDEX` (R8, R23): the number of the stack-pointer register. UNVERIFIED, log 7. -/
def spIndex : Fin 15 := 4

/-- `REG_RESET` (R8, R38): the reset value of every general register. UNVERIFIED, log 4. -/
def regReset : Word := 0

/-- `CC_RESET` (R8, R38), the flag ZF at reset. UNVERIFIED, log 5. -/
def zfReset : Bool := false

/-- `CC_RESET` (R8, R38), the flag SF at reset. UNVERIFIED, log 5. -/
def sfReset : Bool := false

/-- `START_PC` (R8, R171): the starting offset when the image provider gives none. UNVERIFIED, log 6. -/
def startPc : Word := 0

/-- `MEM_SIZE` (R8) of `State.reset`. The spec gives no default: the image provider supplies it. This is the
largest length R8 admits, so that the reset image covers every address an image can have.
DESIGN CHOICE, unsafe, log 1. Every other definition takes the length from the state. -/
def resetMemSize : Nat := 2 ^ 64 - 1

/-- `CMOV_FN_LEGAL` (R8, R72): the legal function codes of class 2. UNVERIFIED, log 8. -/
def cmovFnLegal : List Nibble := [0, 1, 2, 3, 4, 5, 6]

/-- `DIV_OVERFLOW_POLICY` (R8, R112), at the spec's default. UNVERIFIED, safe, log 9. -/
def divOverflowPolicy : DivOverflowPolicy := .fail

/-- `POP_SP_RESULT` (R8, R130): OPEN, so a free value among the three, fixed for the machine. Safe, log 10. -/
opaque popSpResult : PopSpResult

end Config

end Sys2Proof
end

