-- ==== Sys2Proof/Syntax.lean ====
section
/-!
DEFINITION. The syntax of the block: its instructions (R82), the decoded record and status of the Decoder (R61, R62),
the host's cached instruction (R34) and the host's commands (R150).
-/

namespace Sys2Proof

/-- A register identifier, a 4-bit number (R20). `0xF` is the "none" identifier (R21). -/
abbrev RegId := Nibble

/-- The reserved "none" identifier, never a storage slot (R21). -/
abbrev noReg : RegId := 0xF#4

/-! Register names (R22): labels only. -/

abbrev rax : RegId := 0x0#4
abbrev rcx : RegId := 0x1#4
abbrev rdx : RegId := 0x2#4
abbrev rbx : RegId := 0x3#4
abbrev rsp : RegId := 0x4#4
abbrev rbp : RegId := 0x5#4
abbrev rsi : RegId := 0x6#4
abbrev rdi : RegId := 0x7#4
abbrev r8 : RegId := 0x8#4
abbrev r9 : RegId := 0x9#4
abbrev r10 : RegId := 0xA#4
abbrev r11 : RegId := 0xB#4
abbrev r12 : RegId := 0xC#4
abbrev r13 : RegId := 0xD#4
abbrev r14 : RegId := 0xE#4

/-- The opcode classes (R64). -/
inductive OpClass where
  | halt | nop | cmov | irmov | rmmov | mrmov | opq | jump | call | ret | push | pop
deriving DecidableEq, Repr

/-- The predicates of conditional moves and jumps (R69). -/
inductive Predicate where
  | always | le | lt | eq | ne | ge | gt
deriving DecidableEq, Repr

/-- The arithmetic and logic operations of class 6 (R70). -/
inductive AluOp where
  | add | sub | and | xor | mul | div | mod
deriving DecidableEq, Repr

/-- The legal instructions (R82), one constructor for each row of the opcode table. Register operands are in the
order `rA`, `rB` of the register byte (R65); a constant follows them. -/
inductive Instr where
  /-- `00` (R131) -/
  | halt
  /-- `10` (R132) -/
  | nop
  /-- `20 rA:rB` (R91) -/
  | rrmovq (rA rB : RegId)
  /-- `21 rA:rB` (R92) -/
  | cmovle (rA rB : RegId)
  /-- `22 rA:rB` (R93) -/
  | cmovl (rA rB : RegId)
  /-- `23 rA:rB` (R94) -/
  | cmove (rA rB : RegId)
  /-- `24 rA:rB` (R95) -/
  | cmovne (rA rB : RegId)
  /-- `25 rA:rB` (R96) -/
  | cmovge (rA rB : RegId)
  /-- `26 rA:rB` (R97) -/
  | cmovg (rA rB : RegId)
  /-- `30 F:rB V` (R98) -/
  | irmovq (rB : RegId) (v : Word)
  /-- `40 rA:rB D` (R99) -/
  | rmmovq (rA rB : RegId) (d : Word)
  /-- `50 rA:rB D` (R100) -/
  | mrmovq (rA rB : RegId) (d : Word)
  /-- `60 rA:rB` (R104) -/
  | addq (rA rB : RegId)
  /-- `61 rA:rB` (R105) -/
  | subq (rA rB : RegId)
  /-- `62 rA:rB` (R106) -/
  | andq (rA rB : RegId)
  /-- `63 rA:rB` (R107) -/
  | xorq (rA rB : RegId)
  /-- `64 rA:rB` (R108) -/
  | mulq (rA rB : RegId)
  /-- `65 rA:rB` (R109) -/
  | divq (rA rB : RegId)
  /-- `66 rA:rB` (R110) -/
  | modq (rA rB : RegId)
  /-- `70 T` (R116) -/
  | jmp (t : Word)
  /-- `71 T` (R117) -/
  | jle (t : Word)
  /-- `72 T` (R118) -/
  | jl (t : Word)
  /-- `73 T` (R119) -/
  | je (t : Word)
  /-- `74 T` (R120) -/
  | jne (t : Word)
  /-- `75 T` (R121) -/
  | jge (t : Word)
  /-- `76 T` (R122) -/
  | jg (t : Word)
  /-- `80 T` (R123) -/
  | call (t : Word)
  /-- `90` (R124) -/
  | ret
  /-- `A0 rA:F` (R127) -/
  | pushq (rA : RegId)
  /-- `B0 rA:F` (R128) -/
  | popq (rA : RegId)
deriving DecidableEq, Repr

/-- The decoded record `I` (R61). -/
structure Record where
  icode : Nibble
  ifun : Nibble
  rA : RegId
  rB : RegId
  valC : Word
  valP : Word
  addr : Word
deriving DecidableEq, Repr

/-- The status of a decode (R62). -/
inductive Status where
  | validContinue | validHalt | invalid | tooShort
deriving DecidableEq, Repr

/-- The host's cached instruction `CI` (R34): the most recently decoded record, its status, and the mark that a
failed execution sets. -/
structure CachedInstr where
  record : Record
  status : Status
  invalid : Bool
deriving DecidableEq, Repr

/-- The host's commands (R150). -/
inductive Command where
  /-- STEP (R151) -/
  | step
  /-- RUN (R152) -/
  | run
  /-- NEXT (R153) -/
  | next
  /-- JUMP `<address>` (R154) -/
  | jump (a : Word)
  /-- BREAK `<address>` (R155) -/
  | setBreak (a : Word)
  /-- DELETE `<address>` (R155) -/
  | deleteBreak (a : Word)
  /-- EXAMINE `<address>` (R156) -/
  | examine (a : Word)
  /-- REGISTERS (R157) -/
  | registers
  /-- QUIT or EXIT (R159) -/
  | quit
deriving DecidableEq, Repr

/-- One line of input to the host, after tokenizing (R158, R159; tokenizing itself is out of scope, R5). -/
inductive Input where
  /-- A well-formed command. -/
  | command (c : Command)
  /-- An unknown command, or one whose required argument is missing or malformed (R158). -/
  | malformed
  /-- An empty line (R158). -/
  | emptyLine
  /-- A line over the maximum length (R158). -/
  | overLength
  /-- The end of input (R159). -/
  | endOfInput
deriving DecidableEq, Repr

end Sys2Proof
end

