-- ==== Sys2Proof/WellFormed.lean ====
section
/-!
DEFINITION. When an instruction is well formed: its register operands are present (R71) and, for a conditional move,
its function code is in `CMOV_FN_LEGAL` (R72). The encodings of the well-formed instructions are the legal ones of R82.
-/

namespace Sys2Proof

/-- A register operand that is present: a number in `0..0xE`, not the "none" identifier (R71). -/
def present (r : RegId) : Bool := r != noReg

/-- The function code `f` is legal for class 2 (R72). -/
def cmovCodeLegal (f : Nibble) : Bool := Config.cmovFnLegal.contains f

/-- The presence rules (R71) and the legal function codes of class 2 (R72), for each instruction. -/
def Instr.wellFormed : Instr → Bool
  | .halt => true
  | .nop => true
  | .rrmovq rA rB => cmovCodeLegal 0 && present rA && present rB
  | .cmovle rA rB => cmovCodeLegal 1 && present rA && present rB
  | .cmovl rA rB => cmovCodeLegal 2 && present rA && present rB
  | .cmove rA rB => cmovCodeLegal 3 && present rA && present rB
  | .cmovne rA rB => cmovCodeLegal 4 && present rA && present rB
  | .cmovge rA rB => cmovCodeLegal 5 && present rA && present rB
  | .cmovg rA rB => cmovCodeLegal 6 && present rA && present rB
  | .irmovq rB _ => present rB
  | .rmmovq rA rB _ => present rA && present rB
  | .mrmovq rA rB _ => present rA && present rB
  | .addq rA rB => present rA && present rB
  | .subq rA rB => present rA && present rB
  | .andq rA rB => present rA && present rB
  | .xorq rA rB => present rA && present rB
  | .mulq rA rB => present rA && present rB
  | .divq rA rB => present rA && present rB
  | .modq rA rB => present rA && present rB
  | .jmp _ => true
  | .jle _ => true
  | .jl _ => true
  | .je _ => true
  | .jne _ => true
  | .jge _ => true
  | .jg _ => true
  | .call _ => true
  | .ret => true
  | .pushq rA => present rA
  | .popq rA => present rA

end Sys2Proof
end

