-- ==== Sys2Proof/Decode.lean ====
section
/-!
DEFINITION. The Decoder (30_encoding.md) and, after it, an encoder written from the same tables.

The Decoder reads a list of bytes: those of the image from `pc` on, as many as lie inside the image (at most ten are
ever looked at, R78). Byte `k` is missing exactly when `uint(pc) + k >= MEM_SIZE`, so a missing byte here is the failed
read of R41 or R43, compared on unbounded integers as R73 says.
-/

namespace Sys2Proof

/-! ### Bit fields and byte order -/

/-- Bits `[7:4]` of a byte (R10). -/
def highNibble (b : Byte) : Nibble := b.extractLsb' 4 4

/-- Bits `[3:0]` of a byte (R10). -/
def lowNibble (b : Byte) : Nibble := b.extractLsb' 0 4

/-- The quad whose byte at the lowest address is `b0`: little-endian, as R43 writes it. -/
def quadOfBytes (b0 b1 b2 b3 b4 b5 b6 b7 : Byte) : Word :=
  b7 ++ b6 ++ b5 ++ b4 ++ b3 ++ b2 ++ b1 ++ b0

/-- Byte `k` of a quad, `v[8k+7 : 8k]` (R44). -/
def byteOfQuad (v : Word) (k : Nat) : Byte := v.extractLsb' (8 * k) 8

/-- The eight bytes of a quad in memory order (R44, R46). -/
def bytesOfQuad (v : Word) : List Byte :=
  [byteOfQuad v 0, byteOfQuad v 1, byteOfQuad v 2, byteOfQuad v 3,
   byteOfQuad v 4, byteOfQuad v 5, byteOfQuad v 6, byteOfQuad v 7]

/-- The little-endian quad at the front of a list of bytes; `none` when fewer than eight are there (R43). -/
def quadOfList : List Byte → Option Word
  | b0 :: b1 :: b2 :: b3 :: b4 :: b5 :: b6 :: b7 :: _ => some (quadOfBytes b0 b1 b2 b3 b4 b5 b6 b7)
  | _ => none

/-! ### Class, predicate and arithmetic codes -/

/-- The class that a high nibble names; `0xC..0xF` name none (R64). -/
def OpClass.ofCode (c : Nibble) : Option OpClass :=
  match c.toNat with
  | 0x0 => some .halt
  | 0x1 => some .nop
  | 0x2 => some .cmov
  | 0x3 => some .irmov
  | 0x4 => some .rmmov
  | 0x5 => some .mrmov
  | 0x6 => some .opq
  | 0x7 => some .jump
  | 0x8 => some .call
  | 0x9 => some .ret
  | 0xA => some .push
  | 0xB => some .pop
  | _ => none

/-- The number of a class (R64). -/
def OpClass.code : OpClass → Nibble
  | .halt => 0x0
  | .nop => 0x1
  | .cmov => 0x2
  | .irmov => 0x3
  | .rmmov => 0x4
  | .mrmov => 0x5
  | .opq => 0x6
  | .jump => 0x7
  | .call => 0x8
  | .ret => 0x9
  | .push => 0xA
  | .pop => 0xB

/-- The predicate that a function code names (R69). -/
def Predicate.ofCode (f : Nibble) : Option Predicate :=
  match f.toNat with
  | 0 => some .always
  | 1 => some .le
  | 2 => some .lt
  | 3 => some .eq
  | 4 => some .ne
  | 5 => some .ge
  | 6 => some .gt
  | _ => none

/-- The function code of a predicate (R69). -/
def Predicate.code : Predicate → Nibble
  | .always => 0
  | .le => 1
  | .lt => 2
  | .eq => 3
  | .ne => 4
  | .ge => 5
  | .gt => 6

/-- The operation that a function code of class 6 names (R70). -/
def AluOp.ofCode (f : Nibble) : Option AluOp :=
  match f.toNat with
  | 0 => some .add
  | 1 => some .sub
  | 2 => some .and
  | 3 => some .xor
  | 4 => some .mul
  | 5 => some .div
  | 6 => some .mod
  | _ => none

/-- The function code of an operation of class 6 (R70). -/
def AluOp.code : AluOp → Nibble
  | .add => 0
  | .sub => 1
  | .and => 2
  | .xor => 3
  | .mul => 4
  | .div => 5
  | .mod => 6

/-- `hasR` of R73: the class has a register byte. -/
def OpClass.hasRegByte : OpClass → Bool
  | .cmov | .irmov | .rmmov | .mrmov | .opq | .push | .pop => true
  | .halt | .nop | .jump | .call | .ret => false

/-- `hasC` of R73: the class has a constant. -/
def OpClass.hasConst : OpClass → Bool
  | .irmov | .rmmov | .mrmov | .jump | .call => true
  | .halt | .nop | .cmov | .opq | .ret | .push | .pop => false

/-- `len` of R73: the instruction's length in bytes, fixed by its class alone (R66, R81). -/
def OpClass.length (c : OpClass) : Nat :=
  1 + (if c.hasRegByte then 1 else 0) + (if c.hasConst then 8 else 0)

/-- `off` of R67: where the constant stands. -/
def OpClass.constOffset (c : OpClass) : Nat := if c.hasRegByte then 2 else 1

/-! ### Legality -/

/-- `legal` of R73: the function-code rules (R72) and the presence rules (R71). -/
def Record.legal (i : Record) : Bool :=
  match OpClass.ofCode i.icode with
  | none => false
  | some .halt => i.ifun == 0
  | some .nop => i.ifun == 0
  | some .cmov => cmovCodeLegal i.ifun && present i.rA && present i.rB
  | some .irmov => i.ifun == 0 && !present i.rA && present i.rB
  | some .rmmov => i.ifun == 0 && present i.rA && present i.rB
  | some .mrmov => i.ifun == 0 && present i.rA && present i.rB
  | some .opq => (AluOp.ofCode i.ifun).isSome && present i.rA && present i.rB
  | some .jump => (Predicate.ofCode i.ifun).isSome
  | some .call => i.ifun == 0
  | some .ret => i.ifun == 0
  | some .push => i.ifun == 0 && present i.rA && !present i.rB
  | some .pop => i.ifun == 0 && present i.rA && !present i.rB

/-! ### The decode algorithm -/

/-- The defaults of a record before any byte is read (R73, R76). -/
def Record.default (pc : Word) : Record where
  icode := 0
  ifun := 0
  rA := noReg
  rB := noReg
  valC := 0
  valP := pc + 1
  addr := pc

/-- Step 1 of R73: class and function from the opcode byte (R63). -/
def Record.withOpcode (i : Record) (b0 : Byte) : Record :=
  { i with icode := highNibble b0, ifun := lowNibble b0 }

/-- Step 2 of R73: the register byte, where the class has one (R65). `none`: the byte is missing. -/
def Record.withRegByte (i : Record) (c : OpClass) (bs : List Byte) : Option Record :=
  if c.hasRegByte then
    (bs[1]?).map fun b1 => { i with rA := highNibble b1, rB := lowNibble b1 }
  else some i

/-- Step 3 of R73: the constant, where the class has one (R67). `none`: some byte of it is missing. -/
def Record.withConst (i : Record) (c : OpClass) (bs : List Byte) : Option Record :=
  if c.hasConst then
    (quadOfList (bs.drop c.constOffset)).map fun v => { i with valC := v }
  else some i

/-- Step 5 of R73: the status of a record whose bytes were all read. -/
def Record.verdict (i : Record) (c : OpClass) : Status :=
  if i.legal then (if c = .halt then .validHalt else .validContinue) else .invalid

/-- `decode(pc)` of R73, for a known class: every structural read comes before the legality check (R75). -/
def decodeClass (c : OpClass) (i : Record) (bs : List Byte) : Record × Status :=
  match i.withRegByte c bs with
  | none => (i, .tooShort)
  | some i2 =>
    match i2.withConst c bs with
    | none => (i2, .tooShort)
    | some i3 => (i3, i3.verdict c)

/-- `decode(pc)` of R73, over the bytes of the image from `pc` on. -/
def decodeRecord (pc : Word) (bs : List Byte) : Record × Status :=
  match bs with
  | [] => (Record.default pc, .tooShort)
  | b0 :: _ =>
    let i := (Record.default pc).withOpcode b0
    match OpClass.ofCode i.icode with
    | none => (i, .invalid)
    | some c => decodeClass c { i with valP := pc + BitVec.ofNat 64 c.length } bs

/-! ### From the record to the instruction -/

/-- The conditional move of a predicate (R69, R90). -/
def Predicate.move (p : Predicate) (rA rB : RegId) : Instr :=
  match p with
  | .always => .rrmovq rA rB
  | .le => .cmovle rA rB
  | .lt => .cmovl rA rB
  | .eq => .cmove rA rB
  | .ne => .cmovne rA rB
  | .ge => .cmovge rA rB
  | .gt => .cmovg rA rB

/-- The jump of a predicate (R69, R115). -/
def Predicate.jump (p : Predicate) (t : Word) : Instr :=
  match p with
  | .always => .jmp t
  | .le => .jle t
  | .lt => .jl t
  | .eq => .je t
  | .ne => .jne t
  | .ge => .jge t
  | .gt => .jg t

/-- The instruction of an operation of class 6 (R70, R103). -/
def AluOp.instr (op : AluOp) (rA rB : RegId) : Instr :=
  match op with
  | .add => .addq rA rB
  | .sub => .subq rA rB
  | .and => .andq rA rB
  | .xor => .xorq rA rB
  | .mul => .mulq rA rB
  | .div => .divq rA rB
  | .mod => .modq rA rB

/-- The instruction that a record stands for (R82); `none` where no instruction has its class and function code. -/
def Record.instr (i : Record) : Option Instr :=
  match OpClass.ofCode i.icode with
  | none => none
  | some .halt => some .halt
  | some .nop => some .nop
  | some .cmov => (Predicate.ofCode i.ifun).map fun p => p.move i.rA i.rB
  | some .irmov => some (.irmovq i.rB i.valC)
  | some .rmmov => some (.rmmovq i.rA i.rB i.valC)
  | some .mrmov => some (.mrmovq i.rA i.rB i.valC)
  | some .opq => (AluOp.ofCode i.ifun).map fun op => op.instr i.rA i.rB
  | some .jump => (Predicate.ofCode i.ifun).map fun p => p.jump i.valC
  | some .call => some (.call i.valC)
  | some .ret => some .ret
  | some .push => some (.pushq i.rA)
  | some .pop => some (.popq i.rA)

/-- A decode that yields no instruction, by name (R141). -/
inductive DecodeFailure where
  /-- TOO_SHORT: a required byte lies outside the image. -/
  | tooShort
  /-- INVALID: illegal class, function code or register presence. -/
  | invalid
deriving DecidableEq, Repr

/-- The instruction of a decoded record, or the decode failure its status names (R62, R141). -/
def instrOfDecoded (i : Record) (st : Status) : Except DecodeFailure Instr :=
  match st with
  | .tooShort => .error .tooShort
  | .invalid => .error .invalid
  | .validHalt | .validContinue =>
    match i.instr with
    | some instr => .ok instr
    | none => .error .invalid

/-- Decode the instruction at the front of a list of bytes. Total on any bytes (R87). -/
def decode (bs : List Byte) : Except DecodeFailure Instr :=
  instrOfDecoded (decodeRecord 0 bs).1 (decodeRecord 0 bs).2

/-- Numeric encoding of the status (R86). -/
def Status.code : Status → BitVec 2
  | .validContinue => 0
  | .validHalt => 1
  | .invalid => 2
  | .tooShort => 3

/-! ### The encoder

The spec's block has none (R5); this one is the model's own, written from the opcode map (R82), so that decoding can be
said to read every field it should. -/

/-- Format F1 (R66). -/
def encodeF1 (icode ifun : Nibble) : List Byte := [icode ++ ifun]

/-- Format F2 (R66). -/
def encodeF2 (icode ifun : Nibble) (rA rB : RegId) : List Byte := [icode ++ ifun, rA ++ rB]

/-- Format F9 (R66). -/
def encodeF9 (icode ifun : Nibble) (valC : Word) : List Byte := (icode ++ ifun) :: bytesOfQuad valC

/-- Format F10 (R66). -/
def encodeF10 (icode ifun : Nibble) (rA rB : RegId) (valC : Word) : List Byte :=
  (icode ++ ifun) :: (rA ++ rB) :: bytesOfQuad valC

/-- The bytes of an instruction in memory order (R82). -/
def encode : Instr → List Byte
  | .halt => encodeF1 0x0 0x0
  | .nop => encodeF1 0x1 0x0
  | .rrmovq rA rB => encodeF2 0x2 0x0 rA rB
  | .cmovle rA rB => encodeF2 0x2 0x1 rA rB
  | .cmovl rA rB => encodeF2 0x2 0x2 rA rB
  | .cmove rA rB => encodeF2 0x2 0x3 rA rB
  | .cmovne rA rB => encodeF2 0x2 0x4 rA rB
  | .cmovge rA rB => encodeF2 0x2 0x5 rA rB
  | .cmovg rA rB => encodeF2 0x2 0x6 rA rB
  | .irmovq rB v => encodeF10 0x3 0x0 noReg rB v
  | .rmmovq rA rB d => encodeF10 0x4 0x0 rA rB d
  | .mrmovq rA rB d => encodeF10 0x5 0x0 rA rB d
  | .addq rA rB => encodeF2 0x6 0x0 rA rB
  | .subq rA rB => encodeF2 0x6 0x1 rA rB
  | .andq rA rB => encodeF2 0x6 0x2 rA rB
  | .xorq rA rB => encodeF2 0x6 0x3 rA rB
  | .mulq rA rB => encodeF2 0x6 0x4 rA rB
  | .divq rA rB => encodeF2 0x6 0x5 rA rB
  | .modq rA rB => encodeF2 0x6 0x6 rA rB
  | .jmp t => encodeF9 0x7 0x0 t
  | .jle t => encodeF9 0x7 0x1 t
  | .jl t => encodeF9 0x7 0x2 t
  | .je t => encodeF9 0x7 0x3 t
  | .jne t => encodeF9 0x7 0x4 t
  | .jge t => encodeF9 0x7 0x5 t
  | .jg t => encodeF9 0x7 0x6 t
  | .call t => encodeF9 0x8 0x0 t
  | .ret => encodeF1 0x9 0x0
  | .pushq rA => encodeF2 0xA 0x0 rA noReg
  | .popq rA => encodeF2 0xB 0x0 rA noReg

/-- The longest instruction, in bytes (R66). -/
def maxLength : Nat := 10

/-- The `n` bytes of a number whose bit 0 is the least significant bit of the first byte. -/
def bytesOfNat : Nat → Nat → List Byte
  | 0, _ => []
  | n + 1, w => BitVec.ofNat 8 w :: bytesOfNat n (w / 256)

/-- The bytes of an instruction of the opcode table whose first `nbits` bits are `w`, all later ones 0. -/
def tableBytes (nbits w : Nat) : List Byte := bytesOfNat maxLength (w % 2 ^ nbits)

/-- The instruction that the Decoder reads from the bits `w` (bit 0 the least significant bit of the first byte). -/
def decodeTableWord (nbits w : Nat) : Option Instr := (decode (tableBytes nbits w)).toOption

end Sys2Proof
end

