-- ==== Sys2Proof/Machine/Memory.lean ====
section
/-!
DEFINITION. The Memory Image (R31, R40) as plain data, and its operations (R41 to R45) over addresses as numbers.

The image is a length and a list of (address, byte) pairs in one canonical form: addresses strictly rising, all below
the length, and no byte equal to `Memory.unlisted`, what an address inside the image that the list does not name reads
as. `Memory.wf` says the form holds. Reads and writes of one byte agree on every image, canonical or not.
-/

namespace Sys2Proof.Machine

open Sys2Proof

/-- The Memory Image: `MEM_SIZE` bytes with indices `[0, MEM_SIZE)` (R31). -/
structure Memory where
  /-- `MEM_SIZE`, fixed for the session (R31, R38). -/
  size : Nat
  /-- The bytes that differ from `Memory.unlisted`, by strictly rising address. -/
  cells : List Host.Cell
deriving DecidableEq, Repr

namespace Memory

/-- What an address inside the image reads as when the list does not name it. Every image can be listed against it;
only the reset image's contents rest on the choice. DESIGN CHOICE, unsafe, log 2. -/
def unlisted : Byte := 0

/-- The canonical form, with the range of `MEM_SIZE` (R8). -/
abbrev wf (m : Memory) : Prop :=
  (0 < m.size ∧ m.size < 2 ^ 64) ∧
  m.cells.Pairwise (fun c d => c.1 < d.1) ∧
  ∀ c ∈ m.cells, c.1 < m.size ∧ c.2 ≠ unlisted

/-- The byte that a list of cells holds at an address. -/
def lookup : List Host.Cell → Nat → Byte
  | [], _ => unlisted
  | (k, v) :: rest, a => if k = a then v else lookup rest a

/-- Put a cell in front of the first one with a greater address. -/
def insertCell (a : Nat) (v : Byte) : List Host.Cell → List Host.Cell
  | [] => [(a, v)]
  | (k, w) :: rest => if a < k then (a, v) :: (k, w) :: rest else (k, w) :: insertCell a v rest

/-- Replace the byte at an address, keeping the canonical form. -/
def updateCells (cells : List Host.Cell) (a : Nat) (v : Byte) : List Host.Cell :=
  let others := cells.filter fun c => c.1 != a
  if v = unlisted then others else insertCell a v others

/-- `mem[a]`, for an address inside the image. -/
def get (m : Memory) (a : Nat) : Byte := lookup m.cells a

/-- `mem[a] <- v`, for an address inside the image. -/
def set (m : Memory) (a : Nat) (v : Byte) : Memory := { m with cells := updateCells m.cells a v }

/-- Bytes written one after another from `a` on. -/
def setBytes (m : Memory) (a : Nat) : List Byte → Memory
  | [] => m
  | v :: vs => (m.set a v).setBytes (a + 1) vs

/-- `readByte(a)` (R41). -/
def readByte (m : Memory) (a : Word) : Option Byte :=
  if a.toNat < m.size then some (m.get a.toNat) else none

/-- `writeByte(a, v)` (R42). No instruction uses it (R49). -/
def writeByte (m : Memory) (a : Word) (v : Byte) : Option Memory :=
  if a.toNat < m.size then some (m.set a.toNat v) else none

/-- `readQuadLE(a)` (R43): the bound is compared on unbounded integers, with no wrap-around. -/
def readQuad (m : Memory) (a : Word) : Option Word :=
  let n := a.toNat
  if n + 7 < m.size then
    some (quadOfBytes (m.get n) (m.get (n + 1)) (m.get (n + 2)) (m.get (n + 3))
      (m.get (n + 4)) (m.get (n + 5)) (m.get (n + 6)) (m.get (n + 7)))
  else none

/-- `writeQuadLE(a, v)` (R44): one bounds check governs the whole span before any byte is touched (R45). -/
def writeQuad (m : Memory) (a : Word) (v : Word) : Option Memory :=
  if a.toNat + 7 < m.size then some (m.setBytes a.toNat (bytesOfQuad v)) else none

/-- The bytes of the image at `a`, `a + 1`, … , at most `n` of them, as far as the image reaches. -/
def window (m : Memory) : Nat → Nat → List Byte
  | _, 0 => []
  | a, n + 1 => if a < m.size then m.get a :: m.window (a + 1) n else []

/-- The bytes the Decoder can look at when it decodes at `pc` (R78). -/
def fetchBytes (m : Memory) (pc : Word) : List Byte := m.window pc.toNat maxLength

/-- Bytes placed from `a` on, as far as the image reaches: how an image comes to hold them from outside. -/
def place (m : Memory) (a : Nat) : List Byte → Memory
  | [] => m
  | v :: vs => if a < m.size then (m.set a v).place (a + 1) vs else m

/-- The image that an image provider supplies as a buffer of bytes (R170, R173). -/
def ofBuffer (bytes : List Byte) : Memory :=
  place { size := bytes.length, cells := [] } 0 bytes

end Memory

end Sys2Proof.Machine
end

