-- ==== Sys2Proof/Machine/State.lean ====
section
/-!
DEFINITION. The state of the block and of its host as plain data, the ways an execution stops, and the state at
session start.

The Machine State is exactly the registers, the condition codes, the program counter and the Memory Image (R33). The
only state outside it belongs to the host (R36): it is held in the one field `host`, which no instruction reads or
writes.
-/

namespace Sys2Proof.Machine

open Sys2Proof

/-- The condition codes (R26): two flags. That they are never both set is an invariant (`CC.exclusive`), not a fact
of the type. DESIGN CHOICE, safe, log 27. -/
structure CC where
  /-- ZERO -/
  zf : Bool
  /-- SIGN -/
  sf : Bool
deriving DecidableEq, Repr

/-- The flags are mutually exclusive (R26). -/
abbrev CC.exclusive (c : CC) : Prop := ¬(c.zf = true ∧ c.sf = true)

/-- The host's state (R34, R35, R158, R159). -/
structure HostState where
  /-- `CI`, the cached instruction (R34). -/
  ci : CachedInstr
  /-- `BP`, the breakpoint set (R35): its addresses in strictly rising order, so that equal sets are equal data. -/
  bp : List Word
  /-- The previous command, which an empty line repeats (R158). DEDUCED, log 15. -/
  previous : Option Command
  /-- The session has ended (R159). DEDUCED, log 15. -/
  ended : Bool
deriving DecidableEq, Repr

/-- The whole state: the Machine State of R33 and the host's state of R36. -/
structure State where
  /-- The 15 general registers (R20). -/
  regs : Vector Word 15
  /-- The condition codes (R26). -/
  cc : CC
  /-- The program counter (R28). -/
  pc : Word
  /-- The Memory Image (R31). -/
  mem : Memory
  /-- The host's state (R36). -/
  host : HostState
deriving DecidableEq, Repr

/-- The execution failures (R142). Each one ends the instruction with nothing written (R144) and enters no handler,
because there is none (R145): the state of a run that ends so is the state before the instruction. -/
inductive Fault where
  /-- Code 1, raised by mrmovq, ret and popq: the quad read at `a` has `uint(a) + 7 >= MEM_SIZE`. Safe. -/
  | memReadOob
  /-- Code 2, raised by rmmovq, call and pushq: the quad written at `a` has `uint(a) + 7 >= MEM_SIZE`. Safe. -/
  | memWriteOob
  /-- Code 3, raised by divq and modq: the divisor is 0. Safe. -/
  | divZero
  /-- Code 4, raised by divq and modq: `INT64_MIN` by -1 under `DIV_OVERFLOW_POLICY = FAIL`. Safe. -/
  | divOverflow
  /-- Code 5, raised for any record whose status is INVALID or TOO_SHORT (R133, R134), and for a combination that no
  rule of an instruction covers (R135). Safe. -/
  | notExecutable
deriving DecidableEq, Repr

/-- Why the model has no meaning for an instruction. -/
inductive Refusal where
  /-- Raised by an arm of `exec` for an instruction that has no meaning yet. No arm raises it now. Safe. -/
  | notModelled (mnemonic : String)
deriving DecidableEq, Repr

/-- What an execution answers (R140): `ok` with the next state, or an execution failure. -/
abbrev Outcome := Host.Outcome State Fault Refusal

/-- The cached instruction that decoding at an address leaves, not marked invalid (R34). -/
def cacheAt (m : Memory) (pc : Word) : CachedInstr where
  record := (decodeRecord pc (m.fetchBytes pc)).1
  status := (decodeRecord pc (m.fetchBytes pc)).2
  invalid := false

/-- The state at the start of a session, for the image and the starting offset that the provider supplies
(R38, R170 steps 2 to 4). -/
def State.sessionStart (m : Memory) (startPc : Word) : State where
  regs := Vector.replicate 15 Config.regReset
  cc := { zf := Config.zfReset, sf := Config.sfReset }
  pc := startPc
  mem := m
  host := { ci := cacheAt m startPc, bp := [], previous := none, ended := false }

/-- The image of `State.reset`: nothing listed, at the length the model names. DESIGN CHOICE, unsafe, logs 1 and 2. -/
def resetMemory : Memory where
  size := Config.resetMemSize
  cells := []

/-- The state right after reset (R38), for the image the model names. -/
def State.reset : State := State.sessionStart resetMemory Config.startPc

end Sys2Proof.Machine
end

