-- ==== Sys2Proof/Machine/Ops.lean ====
section
/-!
DEFINITION. The primitives of the pseudocode (R12 to R14): registers, flags, the program counter, memory, and raising an
execution failure.

There is no trap to take and none to return from (R145, R146): `raise` is the whole of taking an exception on this
hardware.
-/

namespace Sys2Proof.Machine

open Sys2Proof

/-! ### Failure -/

/-- `raise ExecutionError(cause)` (R14, R144): the instruction ends, nothing is written, control does not transfer. -/
def raise (cause : Fault) : Outcome := .fault cause

/-- The code of an execution failure (R142). -/
def Fault.code : Fault → Nat
  | .memReadOob => 1
  | .memWriteOob => 2
  | .divZero => 3
  | .divOverflow => 4
  | .notExecutable => 5

/-! ### Updates of one field -/

/-- `pc <- t` (R12). -/
def State.setPc (s : State) (t : Word) : State := { s with pc := t }

/-- `cc <- c` (R12). -/
def State.setCc (s : State) (c : CC) : State := { s with cc := c }

/-- `x[i] <- v` (R12), for a register that has storage. -/
def State.setReg (s : State) (i : Fin 15) (v : Word) : State := { s with regs := s.regs.set i.val v i.isLt }

/-- The image replaced. -/
def State.setMem (s : State) (m : Memory) : State := { s with mem := m }

/-- The host's state replaced. -/
def State.setHost (s : State) (h : HostState) : State := { s with host := h }

/-! ### Registers -/

/-- `x[i]` (R12), for a register that has storage. -/
def State.reg (s : State) (i : Fin 15) : Word := s.regs[i.val]

/-- The register that an identifier names; `none` for the "none" identifier, which has no storage (R20, R21). -/
def regIndex (r : RegId) : Option (Fin 15) :=
  if h : r.toNat < 15 then some ⟨r.toNat, h⟩ else none

/-- `x[r]` by identifier; `none` for the "none" identifier, which is never read (R21). -/
def State.readReg (s : State) (r : RegId) : Option Word := (regIndex r).map s.reg

/-- `sp`, that is `x[SP_INDEX]` (R23). -/
def State.sp (s : State) : Word := s.reg Config.spIndex

/-- `sp <- v` (R23). -/
def State.setSp (s : State) (v : Word) : State := s.setReg Config.spIndex v

/-- Run the rest of an instruction with the register that a required operand names. A required operand that is
the "none" identifier is no combination any instruction's rule covers, so it fails (R21, R135). DEDUCED, log 20. -/
def withReg (r : RegId) (k : Fin 15 → Outcome) : Outcome :=
  match regIndex r with
  | some i => k i
  | none => raise .notExecutable

/-! ### Memory -/

/-- `MemRead(a, 8)` (R13). -/
def State.readQuad (s : State) (a : Word) : Option Word := s.mem.readQuad a

/-- `MemWrite(a, 8, v)` (R13). `none`: the write failed and nothing changed (R45). -/
def State.writeQuad (s : State) (a v : Word) : Option State := (s.mem.writeQuad a v).map s.setMem

/-- `t <- MemRead(a, 8) or raise ExecutionError(MEM_READ_OOB)` (R13, R142). -/
def withQuad (s : State) (a : Word) (k : Word → Outcome) : Outcome :=
  match s.readQuad a with
  | some t => k t
  | none => raise .memReadOob

/-- `MemWrite(a, 8, v) or raise ExecutionError(MEM_WRITE_OOB)` (R13, R142), and the rest of the instruction after it. -/
def storingQuad (s : State) (a v : Word) (k : State → Outcome) : Outcome :=
  match s.writeQuad a v with
  | some s' => k s'
  | none => raise .memWriteOob

/-! ### The program counter -/

/-- `valP`, the fall-through address of an instruction of a class at `pc` (R68): `(pc + length) mod 2^64`. The record's
source address is `pc` while it executes (R28), so `pc` serves. DEDUCED, safe, log 13. -/
def State.valP (s : State) (c : OpClass) : Word := s.pc + BitVec.ofNat 64 c.length

/-- `pc <- valP`, the end of an instruction that falls through (R29). -/
def fallThrough (s : State) (c : OpClass) : Outcome := .next (s.setPc (s.valP c))

end Sys2Proof.Machine
end

