-- ==== Sys2Proof/Machine/Flags.lean ====
section
/-!
DEFINITION. The condition codes: how an arithmetic result sets them (R101) and what the predicates read from them (R102).
-/

namespace Sys2Proof.Machine

open Sys2Proof

/-- `flags(r)` (R101): ZF if the result is 0, SF if its bit 63 is set. -/
def flags (r : Word) : CC where
  zf := r == 0
  sf := r.getLsbD 63

/-- `cond(f)` (R102), by predicate. -/
def cond (p : Predicate) (c : CC) : Bool :=
  match p with
  | .always => true
  | .le => c.zf || c.sf
  | .lt => c.sf
  | .eq => c.zf
  | .ne => !c.zf
  | .ge => !c.sf
  | .gt => !c.zf && !c.sf

end Sys2Proof.Machine
end

