-- ==== Sys2Proof/Machine/Arith.lean ====
section
/-!
DEFINITION. The arithmetic and logic family (41_arith.md).
-/

namespace Sys2Proof.Machine

open Sys2Proof

/-- `quotient(n, d)` (R111): truncated toward zero, encoded back into 64 bits. -/
def quotient (n d : Int) : Word := BitVec.ofInt 64 (n.tdiv d)

/-- `remainder(n, d)` (R111): `n - q * d`, encoded back into 64 bits. -/
def remainder (n d : Int) : Word := BitVec.ofInt 64 (n - n.tdiv d * d)

/-- Divide `b` by `a` (R109): the zero divisor is tested first (R149), then the overflow pair (R112). -/
def divideBy (policy : DivOverflowPolicy) (b a : Word) : Except Fault Word :=
  if a = 0 then .error .divZero
  else if b = int64Min ∧ a = minusOne then
    match policy with
    | .fail => .error .divOverflow
    | .wrap => .ok int64Min
  else .ok (quotient b.toInt a.toInt)

/-- The remainder of `b` by `a` (R110), with the tests of `divideBy`. -/
def moduloBy (policy : DivOverflowPolicy) (b a : Word) : Except Fault Word :=
  if a = 0 then .error .divZero
  else if b = int64Min ∧ a = minusOne then
    match policy with
    | .fail => .error .divOverflow
    | .wrap => .ok 0
  else .ok (remainder b.toInt a.toInt)

/-- `op(b, a)` of R103, by operation (R104 to R110). -/
def aluResult (op : AluOp) (b a : Word) : Except Fault Word :=
  match op with
  | .add => .ok (b + a)
  | .sub => .ok (b - a)
  | .and => .ok (b &&& a)
  | .xor => .ok (b ^^^ a)
  | .mul => .ok (b * a)
  | .div => divideBy Config.divOverflowPolicy b a
  | .mod => moduloBy Config.divOverflowPolicy b a

/-- The semantics the family shares (R103). A failure writes nothing (R113). -/
def arithmetic (op : AluOp) (rA rB : RegId) (s : State) : Outcome :=
  withReg rA fun a => withReg rB fun b =>
    match aluResult op (s.reg b) (s.reg a) with
    | .ok r => fallThrough ((s.setReg b r).setCc (flags r)) .opq
    | .error cause => raise cause

/-- `addq rA, rB` (R104). -/
def execAddq (rA rB : RegId) (s : State) : Outcome := arithmetic .add rA rB s

/-- `subq rA, rB` (R105): rB minus rA. -/
def execSubq (rA rB : RegId) (s : State) : Outcome := arithmetic .sub rA rB s

/-- `andq rA, rB` (R106). -/
def execAndq (rA rB : RegId) (s : State) : Outcome := arithmetic .and rA rB s

/-- `xorq rA, rB` (R107). -/
def execXorq (rA rB : RegId) (s : State) : Outcome := arithmetic .xor rA rB s

/-- `mulq rA, rB` (R108): the low 64 bits of the product. -/
def execMulq (rA rB : RegId) (s : State) : Outcome := arithmetic .mul rA rB s

/-- `divq rA, rB` (R109): the quotient of rB by rA. -/
def execDivq (rA rB : RegId) (s : State) : Outcome := arithmetic .div rA rB s

/-- `modq rA, rB` (R110): the remainder of rB by rA. -/
def execModq (rA rB : RegId) (s : State) : Outcome := arithmetic .mod rA rB s

end Sys2Proof.Machine
end

