-- ==== Sys2Proof/Machine/Operands.lean ====
section
/-!
DEFINITION. The operand forms: the effective address of a memory operand and the stack slots that call, ret, pushq and
popq use implicitly.
-/

namespace Sys2Proof.Machine

open Sys2Proof

/-- `D(%rB)`: the base register's value plus the displacement, modulo 2^64 (R67, R99). -/
def effectiveAddress (base d : Word) : Word := base + d

/-- `(sp - 8) mod 2^64`: where call and pushq write, and their new stack pointer (R123, R127). -/
def pushAddress (s : State) : Word := s.sp - 8

/-- `(osp + 8) mod 2^64`: the stack pointer after ret or popq (R124, R128). -/
def popAddress (osp : Word) : Word := osp + 8

/-- What popq of the stack pointer leaves in it (R130), from the old stack pointer and the value popped. -/
def popSpValue (p : PopSpResult) (osp t : Word) : Word :=
  match p with
  | .mem => t
  | .memPlus8 => t + 8
  | .oldPlus8 => osp + 8

/-- Write a quad at `sp - 8`, decrement the stack pointer, and go on (R123, R127). A failing write leaves the stack
pointer as it was (R144). -/
def pushing (s : State) (v : Word) (k : State → Outcome) : Outcome :=
  storingQuad s (pushAddress s) v fun s' => k (s'.setSp (pushAddress s))

end Sys2Proof.Machine
end

