-- ==== Sys2Proof/Machine/Control.lean ====
section
/-!
DEFINITION. Control transfer (42_control.md): jumps, call and return.
-/

namespace Sys2Proof.Machine

open Sys2Proof

/-- The jump family (R115): an absolute target, unchecked (R125). -/
def conditionalJump (p : Predicate) (t : Word) (s : State) : Outcome :=
  if cond p s.cc then .next (s.setPc t) else fallThrough s .jump

/-- `jmp T` (R116). -/
def execJmp (t : Word) (s : State) : Outcome := conditionalJump .always t s

/-- `jle T` (R117). -/
def execJle (t : Word) (s : State) : Outcome := conditionalJump .le t s

/-- `jl T` (R118). -/
def execJl (t : Word) (s : State) : Outcome := conditionalJump .lt t s

/-- `je T` (R119). -/
def execJe (t : Word) (s : State) : Outcome := conditionalJump .eq t s

/-- `jne T` (R120). -/
def execJne (t : Word) (s : State) : Outcome := conditionalJump .ne t s

/-- `jge T` (R121). -/
def execJge (t : Word) (s : State) : Outcome := conditionalJump .ge t s

/-- `jg T` (R122). -/
def execJg (t : Word) (s : State) : Outcome := conditionalJump .gt t s

/-- `call T` (R123): the fall-through address is pushed. -/
def execCall (t : Word) (s : State) : Outcome :=
  pushing s (s.valP .call) fun s' => .next (s'.setPc t)

/-- `ret` (R124): the popped address is used whole and not checked. -/
def execRet (s : State) : Outcome :=
  withQuad s s.sp fun t => .next ((s.setSp (popAddress s.sp)).setPc t)

end Sys2Proof.Machine
end

