-- ==== Sys2Proof/Machine/HaltNop.lean ====
section
/-!
DEFINITION. Halt and no-op (44_halt_nop_invalid.md). Executing a record that does not decode is in Machine/Execute.lean.
-/

namespace Sys2Proof.Machine

open Sys2Proof

/-- `halt` (R131): success, and no state changes; the caller recognises halt from the decode status (R136). -/
def execHalt (s : State) : Outcome := .next s

/-- `nop` (R132): `pc <- valP`. -/
def execNop (s : State) : Outcome := fallThrough s .nop

end Sys2Proof.Machine
end

