-- ==== Sys2Proof/Machine/Moves.lean ====
section
/-!
DEFINITION. The moves (40_moves.md): conditional moves, load-immediate, store and load.
-/

namespace Sys2Proof.Machine

open Sys2Proof

/-- The conditional-move family (R90). A function code outside `CMOV_FN_LEGAL` is no legal instruction (R72), so it
fails (R135). -/
def conditionalMove (p : Predicate) (rA rB : RegId) (s : State) : Outcome :=
  if cmovCodeLegal p.code then
    withReg rA fun a => withReg rB fun b =>
      fallThrough (if cond p s.cc then s.setReg b (s.reg a) else s) .cmov
  else raise .notExecutable

/-- `rrmovq rA, rB` (R91). -/
def execRrmovq (rA rB : RegId) (s : State) : Outcome := conditionalMove .always rA rB s

/-- `cmovle rA, rB` (R92). -/
def execCmovle (rA rB : RegId) (s : State) : Outcome := conditionalMove .le rA rB s

/-- `cmovl rA, rB` (R93). -/
def execCmovl (rA rB : RegId) (s : State) : Outcome := conditionalMove .lt rA rB s

/-- `cmove rA, rB` (R94). -/
def execCmove (rA rB : RegId) (s : State) : Outcome := conditionalMove .eq rA rB s

/-- `cmovne rA, rB` (R95). -/
def execCmovne (rA rB : RegId) (s : State) : Outcome := conditionalMove .ne rA rB s

/-- `cmovge rA, rB` (R96). -/
def execCmovge (rA rB : RegId) (s : State) : Outcome := conditionalMove .ge rA rB s

/-- `cmovg rA, rB` (R97). -/
def execCmovg (rA rB : RegId) (s : State) : Outcome := conditionalMove .gt rA rB s

/-- `irmovq $V, rB` (R98). -/
def execIrmovq (rB : RegId) (v : Word) (s : State) : Outcome :=
  withReg rB fun b => fallThrough (s.setReg b v) .irmov

/-- `rmmovq rA, D(rB)` (R99). -/
def execRmmovq (rA rB : RegId) (d : Word) (s : State) : Outcome :=
  withReg rA fun a => withReg rB fun b =>
    storingQuad s (effectiveAddress (s.reg b) d) (s.reg a) fun s' => fallThrough s' .rmmov

/-- `mrmovq D(rB), rA` (R100). -/
def execMrmovq (rA rB : RegId) (d : Word) (s : State) : Outcome :=
  withReg rA fun a => withReg rB fun b =>
    withQuad s (effectiveAddress (s.reg b) d) fun t => fallThrough (s.setReg a t) .mrmov

end Sys2Proof.Machine
end

