-- ==== Sys2Proof/Machine/Stack.lean ====
section
/-!
DEFINITION. The stack instructions (43_stack.md).
-/

namespace Sys2Proof.Machine

open Sys2Proof

/-- `pushq rA` (R127): the register is read before the stack pointer is decremented (R129). -/
def execPushq (rA : RegId) (s : State) : Outcome :=
  withReg rA fun a => pushing s (s.reg a) fun s' => fallThrough s' .push

/-- `popq rA` (R128); of the stack pointer, per `POP_SP_RESULT` (R130). -/
def execPopq (rA : RegId) (s : State) : Outcome :=
  withReg rA fun a => withQuad s s.sp fun t =>
    if a = Config.spIndex then
      fallThrough (s.setSp (popSpValue Config.popSpResult s.sp t)) .pop
    else
      fallThrough ((s.setReg a t).setSp (popAddress s.sp)) .pop

end Sys2Proof.Machine
end

