-- ==== Sys2Proof/Machine/Dispatch.lean ====
section
/-!
DEFINITION. The Executor (R2): one arm for each instruction, each a call of that instruction's meaning.
-/

namespace Sys2Proof.Machine

open Sys2Proof

/-- Execute one instruction (R140). -/
def exec (i : Instr) (s : State) : Host.Outcome State Fault Refusal :=
  match i with
  | .halt => Sys2Proof.Machine.execHalt s
  | .nop => Sys2Proof.Machine.execNop s
  | .rrmovq rA rB => Sys2Proof.Machine.execRrmovq rA rB s
  | .cmovle rA rB => Sys2Proof.Machine.execCmovle rA rB s
  | .cmovl rA rB => Sys2Proof.Machine.execCmovl rA rB s
  | .cmove rA rB => Sys2Proof.Machine.execCmove rA rB s
  | .cmovne rA rB => Sys2Proof.Machine.execCmovne rA rB s
  | .cmovge rA rB => Sys2Proof.Machine.execCmovge rA rB s
  | .cmovg rA rB => Sys2Proof.Machine.execCmovg rA rB s
  | .irmovq rB v => Sys2Proof.Machine.execIrmovq rB v s
  | .rmmovq rA rB d => Sys2Proof.Machine.execRmmovq rA rB d s
  | .mrmovq rA rB d => Sys2Proof.Machine.execMrmovq rA rB d s
  | .addq rA rB => Sys2Proof.Machine.execAddq rA rB s
  | .subq rA rB => Sys2Proof.Machine.execSubq rA rB s
  | .andq rA rB => Sys2Proof.Machine.execAndq rA rB s
  | .xorq rA rB => Sys2Proof.Machine.execXorq rA rB s
  | .mulq rA rB => Sys2Proof.Machine.execMulq rA rB s
  | .divq rA rB => Sys2Proof.Machine.execDivq rA rB s
  | .modq rA rB => Sys2Proof.Machine.execModq rA rB s
  | .jmp t => Sys2Proof.Machine.execJmp t s
  | .jle t => Sys2Proof.Machine.execJle t s
  | .jl t => Sys2Proof.Machine.execJl t s
  | .je t => Sys2Proof.Machine.execJe t s
  | .jne t => Sys2Proof.Machine.execJne t s
  | .jge t => Sys2Proof.Machine.execJge t s
  | .jg t => Sys2Proof.Machine.execJg t s
  | .call t => Sys2Proof.Machine.execCall t s
  | .ret => Sys2Proof.Machine.execRet s
  | .pushq rA => Sys2Proof.Machine.execPushq rA s
  | .popq rA => Sys2Proof.Machine.execPopq rA s

end Sys2Proof.Machine
end

