-- ==== Sys2Proof/Machine/Execute.lean ====
section
/-!
DEFINITION. Decoding in a state and executing a decoded record: the two halves of a step (R3, R60, R140), and placing an
instruction where the next fetch finds it.
-/

namespace Sys2Proof.Machine

open Sys2Proof

/-- `decode(state)` (R60): read-only, at the program counter, not marked invalid. -/
def State.decodeHere (s : State) : CachedInstr := cacheAt s.mem s.pc

/-- `execute(state, I)` (R140). A record that did not decode, or that is marked invalid, fails (R133, R134); so does one
that no instruction stands for (R135). -/
def executeRecord (i : CachedInstr) (s : State) : Outcome :=
  if i.invalid then raise .notExecutable
  else
    match instrOfDecoded i.record i.status with
    | .ok instr => exec instr s
    | .error _ => raise .notExecutable

/-- `CI <- c`. -/
def State.setCi (s : State) (c : CachedInstr) : State := s.setHost { s.host with ci := c }

/-- `CI <- decode(pc)` (R34, R170). -/
def State.redecode (s : State) : State := s.setCi s.decodeHere

/-- One instruction, decoded afresh at `pc` and executed, and the host's cache updated after its success
(R3, R34, R180). A failure leaves the state as it was (R144). DEDUCED, safe, log 14. -/
def stepHere (s : State) : Outcome :=
  match executeRecord s.decodeHere s with
  | .next s' => .next s'.redecode
  | .fault cause => .fault cause
  | .refused r => .refused r

/-- The state with bytes placed in the image at `pc`, as an image provider would have supplied them, and the host's
cache decoded from them (R170 step 4). DESIGN CHOICE, safe, log 21. -/
def State.placeHere (s : State) (bytes : List Byte) : State :=
  (s.setMem (s.mem.place s.pc.toNat bytes)).redecode

end Sys2Proof.Machine
end

