-- ==== Sys2Proof/Machine/Step.lean ====
section
/-!
DEFINITION. The machine's one step: decode then execute one instruction (R3).
-/

namespace Sys2Proof.Machine

open Sys2Proof

/-- One step (R3). -/
def step (s : State) : Host.Outcome State Fault Refusal := stepHere s

/-- The state with an instruction of the opcode table, given by its first `nbits` bits, where the next step fetches. -/
def State.withFetchWord (s : State) (nbits w : Nat) : State := s.placeHere (tableBytes nbits w)

end Sys2Proof.Machine
end

