-- ==== Sys2Proof/Machine/Boot.lean ====
section
/-!
DEFINITION. The start of a session (R170, R171) and the failures that precede it (R176).

How the provider finds, opens and maps an image is out of scope (R5): what it supplies is an input here.
-/

namespace Sys2Proof.Machine

open Sys2Proof

/-- Why an image provider supplies no image (R176). -/
inductive SupplyFailure where
  /-- The image cannot be opened. -/
  | cannotOpen
  /-- The image cannot be measured. -/
  | cannotMeasure
  /-- The image cannot be mapped. -/
  | cannotMap
deriving DecidableEq, Repr

/-- What the image provider answers: a failure, or an image and an optional starting offset (R170 step 1). -/
inductive Supply where
  | failed (why : SupplyFailure)
  | image (m : Memory) (start : Option Word)
deriving DecidableEq, Repr

/-- LoadError (R140, R176): no Machine State exists after one. -/
inductive LoadError where
  /-- The provider supplied no image. -/
  | noImage (why : SupplyFailure)
  /-- `MEM_SIZE = 0` (D29). -/
  | emptyImage
  /-- `START_PC >= MEM_SIZE` (R171). -/
  | startOutOfRange
deriving DecidableEq, Repr

/-- The start of a session (R170), up to its command loop. An empty image is reported as such, although every offset is
out of range in it. DESIGN CHOICE, safe, log 28. -/
def boot : Supply → Except LoadError State
  | .failed why => .error (.noImage why)
  | .image m start =>
    let startPc := start.getD Config.startPc
    if m.size = 0 then .error .emptyImage
    else if m.size ≤ startPc.toNat then .error .startOutOfRange
    else .ok (State.sessionStart m startPc)

end Sys2Proof.Machine
end

