-- ==== Sys2Proof/Machine/Debugger.lean ====
section
/-!
DEFINITION. The host interface: the Debugger Controller's commands (R150 to R159).

The commands execute the cached instruction `CI`, as R151 to R153 say, where `step` decodes afresh; R180 says the two
agree while `CI` is the decode at `pc`. RUN and NEXT may never stop (R181), so each is given a number of executions, and
answers that it is still running when they are used up. DESIGN CHOICE, safe, log 17.
-/

namespace Sys2Proof.Machine

open Sys2Proof

/-- Why RUN or NEXT stopped (R152, R153, R166). -/
inductive StopReason where
  | failed (cause : Fault)
  | halt
  | breakpoint
  | returned
deriving DecidableEq, Repr

/-- What a command reports. The instruction it displays is the cached one of the state it leaves. -/
inductive Report where
  /-- STEP: `ok`, or the failure (R151). -/
  | stepped (failure : Option Fault)
  /-- RUN or NEXT stopped (R152, R153). -/
  | stopped (why : StopReason)
  /-- RUN or NEXT has used up its executions without stopping (R181). -/
  | stillRunning
  /-- JUMP, BREAK or DELETE did its work (R154, R155). -/
  | done
  /-- EXAMINE: the quad, or `none` for a reported failure (R156). -/
  | quad (v : Option Word)
  /-- REGISTERS: the general registers in order (R157). -/
  | registers (vs : List Word)
  /-- CommandError (R158). -/
  | commandError
  /-- An over-length line was rejected (R158). -/
  | lineRejected
  /-- The session has ended (R159). -/
  | ended
deriving DecidableEq, Repr

/-! ### The breakpoint set -/

/-- `BP ∪ {a}` (R155), keeping the addresses in strictly rising order. -/
def addBreakpoint (a : Word) : List Word → List Word
  | [] => [a]
  | b :: rest =>
    if a.toNat < b.toNat then a :: b :: rest
    else if a = b then b :: rest
    else b :: addBreakpoint a rest

/-- `BP \ {a}` (R155). -/
def removeBreakpoint (a : Word) (bp : List Word) : List Word := bp.filter fun b => b != a

/-- `BP <- bp`. -/
def State.setBp (s : State) (bp : List Word) : State := s.setHost { s.host with bp := bp }

/-! ### Executing the cached instruction -/

/-- `CI.invalid <- true` (R34, R151). -/
def State.markInvalid (s : State) : State := s.setCi { s.host.ci with invalid := true }

/-- `ok <- execute(CI)`; on failure `CI` is marked invalid; then `CI <- decode(pc)` (R151, and R152 with D36). A refusal
would be a combination without an arm, which R135 makes NOT_EXECUTABLE. -/
def executeCached (s : State) : State × Option Fault :=
  match executeRecord s.host.ci s with
  | .next s' => (s'.redecode, none)
  | .fault cause => (s.markInvalid.redecode, some cause)
  | .refused _ => (s.markInvalid.redecode, some .notExecutable)

/-- RUN's checks after each execution, in the order R152 writes them. -/
def runStop (s : State) (failure : Option Fault) : Option StopReason :=
  match failure with
  | some cause => some (.failed cause)
  | none =>
    if s.host.ci.status = .validHalt then some .halt
    else if s.pc ∈ s.host.bp then some .breakpoint
    else none

/-- NEXT's checks after each execution, in the order R153 writes them. -/
def nextStop (sp0 : Word) (s : State) (failure : Option Fault) : Option StopReason :=
  match failure with
  | some cause => some (.failed cause)
  | none => if s.sp = sp0 then some .returned else runStop s none

/-- RUN (R152), for at most `n` executions: the state it leaves, and why it stopped, if it did. -/
def runFor : Nat → State → State × Option StopReason
  | 0, s => (s, none)
  | n + 1, s =>
    match runStop (executeCached s).1 (executeCached s).2 with
    | some why => ((executeCached s).1, some why)
    | none => runFor n (executeCached s).1

/-- NEXT over a call (R153), for at most `n` executions. -/
def nextFor (sp0 : Word) : Nat → State → State × Option StopReason
  | 0, s => (s, none)
  | n + 1, s =>
    match nextStop sp0 (executeCached s).1 (executeCached s).2 with
    | some why => ((executeCached s).1, some why)
    | none => nextFor sp0 n (executeCached s).1

/-- The report of RUN or NEXT. -/
def stopReport : Option StopReason → Report
  | some why => .stopped why
  | none => .stillRunning

/-! ### The commands -/

/-- STEP (R151). -/
def commandStep (s : State) : State × Report :=
  ((executeCached s).1, .stepped (executeCached s).2)

/-- RUN (R152), for at most `n` executions. -/
def commandRun (n : Nat) (s : State) : State × Report :=
  ((runFor n s).1, stopReport (runFor n s).2)

/-- The cached instruction is a call (R153). -/
def cachedCall (s : State) : Bool :=
  s.host.ci.status == .validContinue && s.host.ci.record.icode == OpClass.call.code

/-- NEXT (R153), for at most `n` executions. -/
def commandNext (n : Nat) (s : State) : State × Report :=
  if cachedCall s then ((nextFor s.sp n s).1, stopReport (nextFor s.sp n s).2)
  else commandStep s

/-- JUMP (R154): the program counter, with no check, and the decode there. -/
def commandJump (a : Word) (s : State) : State × Report := ((s.setPc a).redecode, .done)

/-- BREAK (R155). -/
def commandBreak (a : Word) (s : State) : State × Report := (s.setBp (addBreakpoint a s.host.bp), .done)

/-- DELETE (R155). -/
def commandDelete (a : Word) (s : State) : State × Report := (s.setBp (removeBreakpoint a s.host.bp), .done)

/-- EXAMINE (R156). -/
def commandExamine (a : Word) (s : State) : State × Report := (s, .quad (s.readQuad a))

/-- REGISTERS (R157). -/
def commandRegisters (s : State) : State × Report := (s, .registers s.regs.toList)

/-- QUIT, EXIT or the end of input (R159): the breakpoint set is discarded. -/
def endSession (s : State) : State × Report :=
  (s.setHost { s.host with bp := [], ended := true }, .ended)

/-- One command (R150). RUN and NEXT execute at most `n` instructions. -/
def runCommand (n : Nat) (c : Command) (s : State) : State × Report :=
  match c with
  | .step => commandStep s
  | .run => commandRun n s
  | .next => commandNext n s
  | .jump a => commandJump a s
  | .setBreak a => commandBreak a s
  | .deleteBreak a => commandDelete a s
  | .examine a => commandExamine a s
  | .registers => commandRegisters s
  | .quit => endSession s

/-- A command becomes the one that an empty line repeats (R158). DEDUCED, log 15. -/
def State.setPrevious (s : State) (c : Command) : State := s.setHost { s.host with previous := some c }

/-- One line of input (R158, R159). An error leaves all state unchanged, so it does not change which command an empty
line repeats. With no previous command an empty line is reported as an error: DESIGN CHOICE, log 18. After the end of the
session nothing happens: DEDUCED, log 31. -/
def hostInput (n : Nat) (line : Input) (s : State) : State × Report :=
  if s.host.ended then (s, .ended)
  else
    match line with
    | .command c => runCommand n c (s.setPrevious c)
    | .malformed => (s, .commandError)
    | .overLength => (s, .lineRejected)
    | .endOfInput => endSession s
    | .emptyLine =>
      match s.host.previous with
      | some c => runCommand n c s
      | none => (s, .commandError)

end Sys2Proof.Machine
end

