-- ==== Sys2Proof/Safety.lean ====
section
/-!
DEFINITION. The words that claims use: the invariant of the machine, how a run goes on and ends, and the shapes in which
the effect of an instruction is stated.
-/

namespace Sys2Proof.Safety

open Sys2Proof Sys2Proof.Machine

/-! ### The invariant -/

/-- The host's cached instruction is the decode at the program counter, not marked invalid (R34, R180). -/
def CacheCoherent (s : State) : Prop := s.host.ci = s.decodeHere

/-- The breakpoint set lists each address once, in rising order (R35). -/
abbrev BreakpointsOrdered (s : State) : Prop := s.host.bp.Pairwise fun a b => a.toNat < b.toNat

/-- What every state of a session satisfies. -/
structure Inv (s : State) : Prop where
  /-- The image is in canonical form, and `MEM_SIZE` in its range (R8, R31). -/
  memory : s.mem.wf
  /-- The flags are mutually exclusive (R26). -/
  flags : s.cc.exclusive
  /-- The breakpoint set is a set (R35). -/
  breakpoints : BreakpointsOrdered s
  /-- `CI` is the decode at `pc` (R180). -/
  cache : CacheCoherent s

/-! ### Runs -/

/-- The decode at the program counter is a legal halt: a run has reached its end (R136, R166). -/
def Halted (s : State) : Prop := s.decodeHere.status = .validHalt

/-- `n` steps lead from one state to another, with no failure on the way. -/
def StepsTo (n : Nat) (s t : State) : Prop := Sys2Proof.core.run n s = .next t

/-- A run is safe when no step of it fails (R166). It may be infinite (R181). -/
def SafeRun (s : State) : Prop := ∀ n, ∃ t, StepsTo n s t

/-- RUN never stops (R181): for no bound on the number of its executions does it stop. The bound is the model's choice
(DESIGN CHOICE, log 17). -/
def RunDiverges (s : State) : Prop := ∀ n, (runFor n s).2 = none

/-! ### Shapes of effects -/

/-- Every byte of memory reads as before. -/
def MemorySame (s t : State) : Prop := ∀ a, t.mem.readByte a = s.mem.readByte a

/-- Every byte of memory outside the eight from `a` on reads as before. -/
def MemorySameOutside (a : Word) (s t : State) : Prop :=
  ∀ b : Word, (b.toNat < a.toNat ∨ a.toNat + 8 ≤ b.toNat) → t.mem.readByte b = s.mem.readByte b

/-- The eight bytes from `a` on hold `v`: the byte at `a + k` is `v[8k+7 : 8k]` (R44). -/
def HoldsQuad (t : State) (a v : Word) : Prop :=
  ∀ (b : Word) (k : Nat), k < 8 → b.toNat = a.toNat + k → t.mem.readByte b = some (v.extractLsb' (8 * k) 8)

/-- Every register but those named reads as before. -/
def RegsSameBut (rs : List RegId) (s t : State) : Prop := ∀ r, r ∉ rs → t.readReg r = s.readReg r

/-- The length of the image and the host's state are as before. -/
def RestSame (s t : State) : Prop := t.mem.size = s.mem.size ∧ t.host = s.host

/-- The identifier of the stack pointer (R23). -/
def spReg : RegId := BitVec.ofNat 4 Config.spIndex.val

/-- Everything of the Machine State (R33) is as before: registers, flags, program counter and image. -/
def MachineSame (s t : State) : Prop := t.regs = s.regs ∧ t.cc = s.cc ∧ t.pc = s.pc ∧ t.mem = s.mem

/-- Bytes that decode to an instruction, whatever follows them in the image. -/
def Encodes (bytes : List Byte) (i : Instr) : Prop := ∀ rest, decode (bytes ++ rest) = .ok i

/-- `flags(r)` as R101 writes it. -/
def FlagsOf (c : CC) (r : Word) : Prop := (c.zf = true ↔ r = 0) ∧ (c.sf = true ↔ r.getLsbD 63 = true)

/-- The rule of a conditional move (R91 to R97): its encoding, that it completes, and its whole effect. -/
def CondMoveRule (opcode : Byte) (mk : RegId → RegId → Instr) (taken : CC → Bool) : Prop :=
  ∀ (rA rB : RegId) (s : State), rA ≠ noReg → rB ≠ noReg →
    Encodes [opcode, rA ++ rB] (mk rA rB) ∧
    ∃ t, exec (mk rA rB) s = .next t ∧
      t.readReg rB = (if taken s.cc then s.readReg rA else s.readReg rB) ∧
      RegsSameBut [rB] s t ∧ t.cc = s.cc ∧ t.pc = s.pc + 2 ∧ MemorySame s t ∧ RestSame s t

/-- The rule of an arithmetic instruction that cannot fail (R104 to R108): its encoding, that it completes, and its whole
effect, where `result b a r` says that `r` is the operation's result on `b` and `a`. -/
def AluRule (opcode : Byte) (mk : RegId → RegId → Instr) (result : Word → Word → Word → Prop) : Prop :=
  ∀ (rA rB : RegId) (s : State) (a b : Word), s.readReg rA = some a → s.readReg rB = some b →
    Encodes [opcode, rA ++ rB] (mk rA rB) ∧
    ∃ t r, exec (mk rA rB) s = .next t ∧ result b a r ∧
      t.readReg rB = some r ∧ RegsSameBut [rB] s t ∧ FlagsOf t.cc r ∧
      t.pc = s.pc + 2 ∧ MemorySame s t ∧ RestSame s t

/-- The rule of divq or modq (R109, R110) under the policy FAIL: its encoding, its two failures, and, for every other
pair of operands, that it completes, and its whole effect. -/
def DivideRule (opcode : Byte) (mk : RegId → RegId → Instr) (result : Word → Word → Word → Prop) : Prop :=
  ∀ (rA rB : RegId) (s : State) (a b : Word), s.readReg rA = some a → s.readReg rB = some b →
    Encodes [opcode, rA ++ rB] (mk rA rB) ∧
    (a = 0 → exec (mk rA rB) s = .fault .divZero) ∧
    (b = int64Min ∧ a = minusOne → exec (mk rA rB) s = .fault .divOverflow) ∧
    (a ≠ 0 ∧ ¬(b = int64Min ∧ a = minusOne) →
      ∃ t r, exec (mk rA rB) s = .next t ∧ result b a r ∧
        t.readReg rB = some r ∧ RegsSameBut [rB] s t ∧ FlagsOf t.cc r ∧
        t.pc = s.pc + 2 ∧ MemorySame s t ∧ RestSame s t)

/-- `q` is `quotient(n, d)` (R111): its magnitude is the floor of the magnitudes' quotient, its sign the product of the
signs. -/
def IsQuotient (n d q : Int) : Prop :=
  q.natAbs = n.natAbs / d.natAbs ∧ (q = 0 ∨ q.sign = n.sign * d.sign)

/-- The rule of a jump (R116 to R122): its encoding, that it completes, and its whole effect. -/
def JumpRule (opcode : Byte) (mk : Word → Instr) (taken : CC → Bool) : Prop :=
  ∀ (target : Word) (s : State),
    Encodes (opcode :: bytesOfQuad target) (mk target) ∧
    ∃ t, exec (mk target) s = .next t ∧ t.pc = (if taken s.cc then target else s.pc + 9) ∧
      RegsSameBut [] s t ∧ t.cc = s.cc ∧ MemorySame s t ∧ RestSame s t

end Sys2Proof.Safety
end

