-- ==== Sys2Proof/Certificates/Slice0/Obligations.lean ====
section
/-!
DEFINITION. The statements for the provers. Each docstring names the rule of spec/ it formalises, or says that it is the
model's own.
-/

open Sys2Proof Sys2Proof.Machine Sys2Proof.Safety

/-! ### Encoding -/

/-- A few of the spec's own encodings (95_test_vectors.md, 2.2) decode to the instruction they stand for, one for each
format and more. -/
def Obligations.WrittenOutWordsDecodeToTheirInstructions : Prop :=
  Encodes [0x00] .halt ∧ Encodes [0x10] .nop ∧ Encodes [0x26, 0x12] (.cmovg rcx rdx) ∧
  Encodes [0x30, 0xF0, 0x05, 0, 0, 0, 0, 0, 0, 0] (.irmovq rax 5) ∧
  Encodes [0x40, 0x03, 0x08, 0, 0, 0, 0, 0, 0, 0] (.rmmovq rax rbx 8) ∧
  Encodes [0x50, 0x13, 0xF8, 0xFF, 0xFF, 0xFF, 0xFF, 0xFF, 0xFF, 0xFF] (.mrmovq rcx rbx 0xFFFFFFFFFFFFFFF8#64) ∧
  Encodes [0x66, 0x12] (.modq rcx rdx) ∧ Encodes [0x76, 0x00, 0x01, 0, 0, 0, 0, 0, 0] (.jg 0x100) ∧
  Encodes [0x80, 0x40, 0, 0, 0, 0, 0, 0, 0] (.call 0x40) ∧ Encodes [0x90] .ret ∧
  Encodes [0xA0, 0x0F] (.pushq rax) ∧ Encodes [0xB0, 0x3F] (.popq rbx)

/-- Decode and encode agree: the bytes of every well-formed instruction, whatever follows them, decode to it. -/
def Obligations.EveryWellFormedInstructionDecodesFromItsEncoding : Prop :=
  ∀ (i : Instr) (rest : List Byte), i.wellFormed = true → decode (encode i ++ rest) = .ok i

/-- The other direction: bytes that decode to an instruction begin with its encoding, and the instruction is well formed.
So no other bytes stand for it, and no illegal encoding decodes (R80, R82). -/
def Obligations.DecodingYieldsOnlyWellFormedInstructionsFromTheirOwnEncoding : Prop :=
  ∀ (bs : List Byte) (i : Instr), decode bs = .ok i → i.wellFormed = true ∧ ∃ rest, bs = encode i ++ rest

/-- The record of a well-formed instruction: its source address, its fall-through address `pc + length`, and its
status (R61, R62, R68). -/
def Obligations.DecodedRecordHoldsAddressesAndStatus : Prop :=
  ∀ (pc : Word) (i : Instr) (rest : List Byte), i.wellFormed = true →
    ∃ r st, decodeRecord pc (encode i ++ rest) = (r, st) ∧ r.instr = some i ∧ r.addr = pc ∧
      r.valP = pc + BitVec.ofNat 64 (encode i).length ∧
      st = (if i = .halt then .validHalt else .validContinue)

/-- For a known class the decode is TOO_SHORT exactly when `uint(pc) + len > MEM_SIZE`, legal or not (R73, R75). -/
def Obligations.KnownClassIsTooShortExactlyWhenTheImageEnds : Prop :=
  ∀ (s : State) (b0 : Byte) (c : OpClass), s.mem.readByte s.pc = some b0 →
    OpClass.ofCode (highNibble b0) = some c →
    (s.decodeHere.status = .tooShort ↔ s.mem.size < s.pc.toNat + c.length)

/-- A program counter outside the image decodes as TOO_SHORT with the default record (R76, R87). -/
def Obligations.CounterOutsideTheImageDecodesTooShort : Prop :=
  ∀ s : State, s.mem.size ≤ s.pc.toNat →
    s.decodeHere.status = .tooShort ∧
    s.decodeHere.record =
      { icode := 0, ifun := 0, rA := noReg, rB := noReg, valC := 0, valP := s.pc + 1, addr := s.pc }

/-- R74: a first byte whose high nibble is `0xC` to `0xF` is INVALID as soon as it is read, whatever follows it. -/
def Obligations.UnknownClassIsInvalidAfterOneByte : Prop :=
  ∀ (pc : Word) (b0 : Byte) (rest : List Byte), 0xC ≤ b0.toNat / 16 →
    decodeRecord pc (b0 :: rest) =
      ({ icode := BitVec.ofNat 4 (b0.toNat / 16), ifun := BitVec.ofNat 4 (b0.toNat % 16), rA := noReg, rB := noReg,
         valC := 0, valP := pc + 1, addr := pc }, .invalid)

/-- R78: the decode depends only on `pc`, `MEM_SIZE` and the bytes `mem[pc .. pc + 9]`. -/
def Obligations.DecodeDependsOnlyOnTheBytesAtTheCounter : Prop :=
  ∀ s t : State, t.pc = s.pc → t.mem.size = s.mem.size →
    (∀ n, s.pc.toNat ≤ n → n ≤ s.pc.toNat + 9 → t.mem.get n = s.mem.get n) →
    t.decodeHere = s.decodeHere

/-! ### Reset and session start -/

/-- The registers, flags and program counter after reset at the spec's defaults, an empty breakpoint set, and the cached
instruction (R38, R172). -/
def Obligations.ResetHoldsTheDefaultsOfTheSpec : Prop :=
  (∀ r, r ≠ noReg → State.reset.readReg r = some 0) ∧
  State.reset.cc = { zf := false, sf := false } ∧ State.reset.pc = 0 ∧
  State.reset.host.bp = [] ∧ CacheCoherent State.reset

/-- R171: the session starts at the starting offset, 0 when none is given, with the supplied image; an offset outside the
image is a LoadError. -/
def Obligations.SessionStartsAtTheSuppliedOffsetOrNotAtAll : Prop :=
  ∀ (m : Memory) (start : Option Word),
    (m.size ≤ (start.getD 0).toNat → ∃ e, boot (.image m start) = .error e) ∧
    ((start.getD 0).toNat < m.size → ∃ s, boot (.image m start) = .ok s ∧ s.pc = start.getD 0 ∧ s.mem = m)

/-! ### The step -/

/-- A step runs the decoded instruction: when the bytes at the program counter decode to `i`, the step answers what `exec`
answers, and on success also re-decodes at the new program counter (R3, R34). -/
def Obligations.StepRunsTheDecodedInstruction : Prop :=
  ∀ (s : State) (i : Instr), decode (s.mem.fetchBytes s.pc) = .ok i →
    (∀ t, exec i s = .next t → step s = .next t.redecode) ∧
    (∀ f, exec i s = .fault f → step s = .fault f)

/-- R133 and R134: executing a record whose status is INVALID or TOO_SHORT fails with NOT_EXECUTABLE, and so does a
step whose bytes decode so. -/
def Obligations.UndecodableRecordsFailToExecute : Prop :=
  (∀ (c : CachedInstr) (s : State), c.status = .invalid ∨ c.status = .tooShort →
    executeRecord c s = .fault .notExecutable) ∧
  (∀ (s : State) (e : DecodeFailure), decode (s.mem.fetchBytes s.pc) = .error e → step s = .fault .notExecutable)

/-- An instruction that is not well formed fails with NOT_EXECUTABLE. The model's reading of R135, log 20. -/
def Obligations.IllFormedInstructionsFail : Prop :=
  ∀ (i : Instr) (s : State), i.wellFormed = false → exec i s = .fault .notExecutable

/-! ### Moves -/

/-- R91 to R97: the seven conditional moves. -/
def Obligations.ConditionalMovesCopyWhenTheirPredicateHolds : Prop :=
  CondMoveRule 0x20 .rrmovq (fun _ => true) ∧
  CondMoveRule 0x21 .cmovle (fun c => c.zf || c.sf) ∧
  CondMoveRule 0x22 .cmovl (fun c => c.sf) ∧
  CondMoveRule 0x23 .cmove (fun c => c.zf) ∧
  CondMoveRule 0x24 .cmovne (fun c => !c.zf) ∧
  CondMoveRule 0x25 .cmovge (fun c => !c.sf) ∧
  CondMoveRule 0x26 .cmovg (fun c => !c.zf && !c.sf)

/-- R98: load-immediate. -/
def Obligations.IrmovqLoadsItsConstantWhole : Prop :=
  ∀ (rB : RegId) (v : Word) (s : State), rB ≠ noReg →
    Encodes (0x30 :: (noReg ++ rB) :: bytesOfQuad v) (.irmovq rB v) ∧
    ∃ t, exec (.irmovq rB v) s = .next t ∧ t.readReg rB = some v ∧ RegsSameBut [rB] s t ∧
      t.cc = s.cc ∧ t.pc = s.pc + 10 ∧ MemorySame s t ∧ RestSame s t

/-- R99: the store, and its failure. -/
def Obligations.RmmovqStoresAQuadAtBasePlusDisplacement : Prop :=
  ∀ (rA rB : RegId) (d : Word) (s : State) (v base : Word),
    s.readReg rA = some v → s.readReg rB = some base →
    Encodes (0x40 :: (rA ++ rB) :: bytesOfQuad d) (.rmmovq rA rB d) ∧
    ((effectiveAddress base d).toNat + 7 < s.mem.size →
      ∃ t, exec (.rmmovq rA rB d) s = .next t ∧
        effectiveAddress base d = BitVec.ofNat 64 (base.toNat + d.toNat) ∧
        HoldsQuad t (effectiveAddress base d) v ∧ MemorySameOutside (effectiveAddress base d) s t ∧
        RegsSameBut [] s t ∧ t.cc = s.cc ∧ t.pc = s.pc + 10 ∧ RestSame s t) ∧
    (s.mem.size ≤ (effectiveAddress base d).toNat + 7 → exec (.rmmovq rA rB d) s = .fault .memWriteOob)

/-- R100: the load, and its failure. -/
def Obligations.MrmovqLoadsTheQuadAtBasePlusDisplacement : Prop :=
  ∀ (rA rB : RegId) (d : Word) (s : State) (base : Word),
    rA ≠ noReg → s.readReg rB = some base →
    Encodes (0x50 :: (rA ++ rB) :: bytesOfQuad d) (.mrmovq rA rB d) ∧
    ((effectiveAddress base d).toNat + 7 < s.mem.size →
      ∃ t v, exec (.mrmovq rA rB d) s = .next t ∧
        effectiveAddress base d = BitVec.ofNat 64 (base.toNat + d.toNat) ∧
        t.readReg rA = some v ∧ HoldsQuad s (effectiveAddress base d) v ∧
        RegsSameBut [rA] s t ∧ t.cc = s.cc ∧ t.pc = s.pc + 10 ∧ MemorySame s t ∧ RestSame s t) ∧
    (s.mem.size ≤ (effectiveAddress base d).toNat + 7 → exec (.mrmovq rA rB d) s = .fault .memReadOob)

/-! ### Arithmetic and flags -/

/-- R104 to R108: the arithmetic and logic instructions that cannot fail. -/
def Obligations.ArithmeticLeavesResultAndFlags : Prop :=
  AluRule 0x60 .addq (fun b a r => r.toNat = (b.toNat + a.toNat) % 2 ^ 64) ∧
  AluRule 0x61 .subq (fun b a r => r.toNat = (2 ^ 64 + b.toNat - a.toNat) % 2 ^ 64) ∧
  AluRule 0x62 .andq (fun b a r => ∀ k, r.getLsbD k = (b.getLsbD k && a.getLsbD k)) ∧
  AluRule 0x63 .xorq (fun b a r => ∀ k, r.getLsbD k = (b.getLsbD k ^^ a.getLsbD k)) ∧
  AluRule 0x64 .mulq (fun b a r => r.toNat = (b.toNat * a.toNat) % 2 ^ 64)

/-- R109 with R111's quotient: signed division, truncated toward zero, of rB by rA, and its failures. -/
def Obligations.DivqLeavesTheTruncatedQuotient : Prop :=
  DivideRule 0x65 .divq (fun b a r => IsQuotient b.toInt a.toInt r.toInt)

/-- R110 with R111's remainder: it has the sign of the dividend, or is 0. -/
def Obligations.ModqLeavesTheRemainderOfTheTruncatedQuotient : Prop :=
  DivideRule 0x66 .modq fun b a r =>
    (∃ q, IsQuotient b.toInt a.toInt q ∧ r.toInt = b.toInt - q * a.toInt) ∧
    r.toInt.natAbs < a.toInt.natAbs ∧ (r = 0 ∨ r.toInt.sign = b.toInt.sign)

/-- R112: division overflow under each policy, with the flags that the WRAP results set, and the default. -/
def Obligations.DivisionOverflowFollowsThePolicy : Prop :=
  Config.divOverflowPolicy = .fail ∧
  divideBy .fail int64Min minusOne = .error .divOverflow ∧
  moduloBy .fail int64Min minusOne = .error .divOverflow ∧
  divideBy .wrap int64Min minusOne = .ok int64Min ∧ flags int64Min = { zf := false, sf := true } ∧
  moduloBy .wrap int64Min minusOne = .ok 0 ∧ flags 0 = { zf := true, sf := false }

/-- Each predicate, over the flags of a result, compares that result, as a signed value, with 0 (R101, R102). -/
def Obligations.PredicatesCompareTheLastResultWithZero : Prop :=
  ∀ r : Word,
    (cond .le (flags r) = true ↔ r.toInt ≤ 0) ∧ (cond .lt (flags r) = true ↔ r.toInt < 0) ∧
    (cond .eq (flags r) = true ↔ r.toInt = 0) ∧ (cond .ne (flags r) = true ↔ r.toInt ≠ 0) ∧
    (cond .ge (flags r) = true ↔ 0 ≤ r.toInt) ∧ (cond .gt (flags r) = true ↔ 0 < r.toInt)

/-! ### Control transfer and stack -/

/-- R116 to R122: the seven jumps. -/
def Obligations.JumpsGoToTheirTargetWhenTheirPredicateHolds : Prop :=
  JumpRule 0x70 .jmp (fun _ => true) ∧
  JumpRule 0x71 .jle (fun c => c.zf || c.sf) ∧
  JumpRule 0x72 .jl (fun c => c.sf) ∧
  JumpRule 0x73 .je (fun c => c.zf) ∧
  JumpRule 0x74 .jne (fun c => !c.zf) ∧
  JumpRule 0x75 .jge (fun c => !c.sf) ∧
  JumpRule 0x76 .jg (fun c => !c.zf && !c.sf)

/-- R123: call, and its failure. -/
def Obligations.CallPushesTheFallThroughAddress : Prop :=
  ∀ (target : Word) (s : State),
    Encodes (0x80 :: bytesOfQuad target) (.call target) ∧
    ((pushAddress s).toNat + 7 < s.mem.size →
      ∃ t, exec (.call target) s = .next t ∧ s.readReg spReg = some (pushAddress s + 8) ∧
        HoldsQuad t (pushAddress s) (s.pc + 9) ∧ MemorySameOutside (pushAddress s) s t ∧
        t.readReg spReg = some (pushAddress s) ∧ RegsSameBut [spReg] s t ∧ t.cc = s.cc ∧ t.pc = target ∧
        RestSame s t) ∧
    (s.mem.size ≤ (pushAddress s).toNat + 7 → exec (.call target) s = .fault .memWriteOob)

/-- R124: return, and its failure. -/
def Obligations.RetPopsTheProgramCounter : Prop :=
  ∀ (s : State) (sp : Word), s.readReg spReg = some sp →
    Encodes [0x90] .ret ∧
    (sp.toNat + 7 < s.mem.size →
      ∃ t, exec .ret s = .next t ∧ HoldsQuad s sp t.pc ∧ t.readReg spReg = some (sp + 8) ∧
        RegsSameBut [spReg] s t ∧ t.cc = s.cc ∧ MemorySame s t ∧ RestSame s t) ∧
    (s.mem.size ≤ sp.toNat + 7 → exec .ret s = .fault .memReadOob)

/-- R127, with R129: push of any register, the stack pointer among them, stores the value from before the decrement; and
its failure. -/
def Obligations.PushqStoresTheRegisterBelowTheStackPointer : Prop :=
  ∀ (rA : RegId) (s : State) (v : Word), s.readReg rA = some v →
    Encodes [0xA0, rA ++ noReg] (.pushq rA) ∧
    ((pushAddress s).toNat + 7 < s.mem.size →
      ∃ t, exec (.pushq rA) s = .next t ∧ s.readReg spReg = some (pushAddress s + 8) ∧
        HoldsQuad t (pushAddress s) v ∧ MemorySameOutside (pushAddress s) s t ∧
        t.readReg spReg = some (pushAddress s) ∧ RegsSameBut [spReg] s t ∧ t.cc = s.cc ∧
        t.pc = s.pc + 2 ∧ RestSame s t) ∧
    (s.mem.size ≤ (pushAddress s).toNat + 7 → exec (.pushq rA) s = .fault .memWriteOob)

/-- R128 for a register other than the stack pointer, and the failure for every register. -/
def Obligations.PopqLoadsTheQuadAtTheStackPointer : Prop :=
  ∀ (rA : RegId) (s : State) (sp : Word), rA ≠ noReg → s.readReg spReg = some sp →
    Encodes [0xB0, rA ++ noReg] (.popq rA) ∧
    (sp.toNat + 7 < s.mem.size ∧ rA ≠ spReg →
      ∃ t v, exec (.popq rA) s = .next t ∧ HoldsQuad s sp v ∧ t.readReg rA = some v ∧
        t.readReg spReg = some (sp + 8) ∧ RegsSameBut [rA, spReg] s t ∧ t.cc = s.cc ∧ t.pc = s.pc + 2 ∧
        MemorySame s t ∧ RestSame s t) ∧
    (s.mem.size ≤ sp.toNat + 7 → exec (.popq rA) s = .fault .memReadOob)

/-- R130: pop of the stack pointer leaves one of the three values, by `POP_SP_RESULT`, whichever it is (log 10), and its
failure is the same under every choice. -/
def Obligations.PopqOfTheStackPointerLeavesOneOfThreeValues : Prop :=
  ∀ (s : State) (sp : Word), s.readReg spReg = some sp →
    Encodes [0xB0, 0x4F] (.popq spReg) ∧
    (sp.toNat + 7 < s.mem.size →
      ∃ t v, exec (.popq spReg) s = .next t ∧ HoldsQuad s sp v ∧
        (Config.popSpResult = .mem → t.readReg spReg = some v) ∧
        (Config.popSpResult = .memPlus8 → t.readReg spReg = some (v + 8)) ∧
        (Config.popSpResult = .oldPlus8 → t.readReg spReg = some (sp + 8)) ∧
        RegsSameBut [spReg] s t ∧ t.cc = s.cc ∧ t.pc = s.pc + 2 ∧ MemorySame s t ∧ RestSame s t) ∧
    (s.mem.size ≤ sp.toNat + 7 → exec (.popq spReg) s = .fault .memReadOob)

/-- A return right after a call comes back to the instruction after the call, with the stack pointer as it was (R123,
R124, R126). -/
def Obligations.ReturnAfterCallComesBack : Prop :=
  ∀ (target : Word) (s t : State), exec (.call target) s = .next t →
    ∃ u, exec .ret t = .next u ∧ u.pc = s.pc + 9 ∧ RegsSameBut [] s u ∧ u.cc = s.cc

/-- A pop right after a push gives the pushed value, and the stack pointer as it was, for a destination other than the
stack pointer (R127, R128). -/
def Obligations.PopAfterPushGivesThePushedValue : Prop :=
  ∀ (rA rB : RegId) (s t : State), exec (.pushq rA) s = .next t → rB ≠ noReg → rB ≠ spReg →
    ∃ u, exec (.popq rB) t = .next u ∧ u.readReg rB = s.readReg rA ∧ RegsSameBut [rB] s u ∧ u.cc = s.cc

/-- With a stack pointer below 8, as at reset, call and push fail in every image of a legal length (R123, R127, R174). -/
def Obligations.StackPointerBelowEightCannotPush : Prop :=
  ∀ (s : State) (rA : RegId) (target : Word), s.mem.size < 2 ^ 64 → s.sp.toNat < 8 → rA ≠ noReg →
    exec (.call target) s = .fault .memWriteOob ∧ exec (.pushq rA) s = .fault .memWriteOob

/-! ### Halt and no-op -/

/-- R131: halt, its decode, and that a step at a halt leaves the state fixed. -/
def Obligations.HaltChangesNothing : Prop :=
  (∀ s, exec .halt s = .next s) ∧
  (∀ (pc : Word) (b0 : Byte) (rest : List Byte), b0.toNat / 16 = 0 →
    (decodeRecord pc (b0 :: rest)).2 = (if b0 = 0 then .validHalt else .invalid)) ∧
  (∀ s, Halted s → CacheCoherent s → step s = .next s)

/-- R132: no-op, its decode and its effect. -/
def Obligations.NopOnlyAdvancesTheCounter : Prop :=
  (∀ s, ∃ t, exec .nop s = .next t ∧ t.pc = s.pc + 1 ∧ RegsSameBut [] s t ∧ t.cc = s.cc ∧ MemorySame s t ∧
    RestSame s t) ∧
  (∀ (pc : Word) (b0 : Byte) (rest : List Byte), b0.toNat / 16 = 1 →
    (decodeRecord pc (b0 :: rest)).2 = (if b0 = 0x10 then .validContinue else .invalid))

/-! ### Memory -/

/-- R41 and R42: the byte operations. -/
def Obligations.ByteOperationsTouchOneByteInsideTheImage : Prop :=
  ∀ (m : Memory) (a : Word) (v : Byte),
    (m.size ≤ a.toNat → m.readByte a = none ∧ m.writeByte a v = none) ∧
    (a.toNat < m.size →
      m.readByte a = some (m.get a.toNat) ∧
      ∃ m', m.writeByte a v = some m' ∧ m'.size = m.size ∧ m'.readByte a = some v ∧
        ∀ b, b ≠ a → m'.readByte b = m.readByte b)

/-- R43 and R44: the quad operations, little-endian, with the bound compared on unbounded integers. -/
def Obligations.QuadOperationsAreLittleEndianAndAllOrNothing : Prop :=
  ∀ (m : Memory) (a v : Word),
    (m.size ≤ a.toNat + 7 → m.readQuad a = none ∧ m.writeQuad a v = none) ∧
    (a.toNat + 7 < m.size →
      (∃ w, m.readQuad a = some w ∧ ∀ k, k < 8 → w.extractLsb' (8 * k) 8 = m.get (a.toNat + k)) ∧
      ∃ m', m.writeQuad a v = some m' ∧ m'.size = m.size ∧ m'.readQuad a = some v ∧
        (∀ k, k < 8 → m'.get (a.toNat + k) = v.extractLsb' (8 * k) 8) ∧
        ∀ n, (n < a.toNat ∨ a.toNat + 8 ≤ n) → m'.get n = m.get n)

/-- A quad read four bytes above a quad write sees the upper half of the written value in its lower half (R47). -/
def Obligations.OverlappingQuadReadSeesTheWrittenBytes : Prop :=
  ∀ (m m' : Memory) (a b v w : Word), m.writeQuad a v = some m' → m'.readQuad b = some w →
    b.toNat = a.toNat + 4 → w.extractLsb' 0 32 = v.extractLsb' 32 32

/-- A store at its own fall-through address is seen by the very next decode (R56). -/
def Obligations.StoreIsSeenByTheNextDecode : Prop :=
  ∀ (rA rB : RegId) (d v base : Word) (s t : State), s.readReg rA = some v → s.readReg rB = some base →
    effectiveAddress base d = s.pc + 10 → exec (.rmmovq rA rB d) s = .next t →
    t.decodeHere.record.icode = v.extractLsb' 4 4 ∧ t.decodeHere.record.ifun = v.extractLsb' 0 4

/-! ### Whole-machine rules -/

/-- The invariant of `Safety.Inv` holds right after reset (for the reset image that logs 1 and 2 name) and at the start of
every session. -/
def Obligations.SessionsStartInTheInvariant : Prop :=
  Inv State.reset ∧ ∀ (m : Memory) (start : Option Word) (s : State), m.wf → boot (.image m start) = .ok s → Inv s

/-- Every step keeps the invariant: the image stays canonical and of a legal length, the flags stay exclusive (R26), the
breakpoint set stays a set (R35), and the cached instruction stays the decode at the program counter (R180). -/
def Obligations.EveryStepKeepsTheInvariant : Prop :=
  ∀ s t : State, Inv s → step s = .next t → Inv t

/-- Every line of input to the host keeps the invariant, whatever it is and however long RUN or NEXT goes on: `n` is the
bound on their executions that the model chose (DESIGN CHOICE, log 17). -/
def Obligations.EveryHostInputKeepsTheInvariant : Prop :=
  ∀ (n : Nat) (line : Input) (s : State), Inv s → Inv (hostInput n line s).1

/-- The flags are written only by an arithmetic or logic instruction (R27). -/
def Obligations.FlagsChangeOnlyInArithmetic : Prop :=
  ∀ (i : Instr) (s t : State), exec i s = .next t → t.cc ≠ s.cc →
    ∃ (op : AluOp) (rA rB : RegId), i = op.instr rA rB

/-- A byte of memory is changed only by a store, a call or a push (R24). -/
def Obligations.MemoryChangesOnlyInStoreCallAndPush : Prop :=
  ∀ (i : Instr) (s t : State), exec i s = .next t → ¬ MemorySame s t →
    (∃ rA rB d, i = .rmmovq rA rB d) ∨ (∃ target, i = .call target) ∨ (∃ rA, i = .pushq rA)

/-- No instruction changes `MEM_SIZE` or the host's state, and none writes more than two registers, the stack pointer
and one other (R24, R31, R35). -/
def Obligations.NoInstructionTouchesTheHostOrTheImageLength : Prop :=
  ∀ (i : Instr) (s t : State), exec i s = .next t → RestSame s t ∧ ∃ r, RegsSameBut [r, spReg] s t

/-- Which instruction can fail how, and that nothing else can (R142). -/
def Obligations.FailuresComeOnlyFromTheirInstructions : Prop :=
  ∀ (i : Instr) (s : State) (f : Fault), i.wellFormed = true → exec i s = .fault f →
    (f = .memReadOob ∧ ((∃ rA rB d, i = .mrmovq rA rB d) ∨ i = .ret ∨ ∃ rA, i = .popq rA)) ∨
    (f = .memWriteOob ∧ ((∃ rA rB d, i = .rmmovq rA rB d) ∨ (∃ c, i = .call c) ∨ ∃ rA, i = .pushq rA)) ∨
    ((f = .divZero ∨ f = .divOverflow) ∧ ∃ rA rB, i = .divq rA rB ∨ i = .modq rA rB)

/-! ### The host interface -/

/-- A failed execution of the cached instruction leaves the whole Machine State as it was, and the cached instruction
decoded again at the unchanged program counter (R144, R151). -/
def Obligations.FailedExecutionLeavesTheMachineState : Prop :=
  ∀ (s : State) (f : Fault), (executeCached s).2 = some f →
    MachineSame s (executeCached s).1 ∧ CacheCoherent (executeCached s).1 ∧
    (executeCached s).1.host.bp = s.host.bp

/-- Executing the cached instruction is the same as decoding at the program counter and executing, in every state of a
session (R180): STEP is the machine's step. -/
def Obligations.HostStepIsTheMachinesStep : Prop :=
  ∀ s : State, CacheCoherent s →
    (∀ t, step s = .next t → commandStep s = (t, .stepped none)) ∧
    (∀ f, step s = .fault f → commandStep s = (s, .stepped (some f)))

/-- RUN is the repeated step (R152, R166): where it stops, it stops at a halt or at a breakpoint after at least one step,
or before the step that fails. The bound `n` on the number of executions, and so the clauses `k ≤ n` and `k < n`, are the
model's choice and no rule of the spec (DESIGN CHOICE, log 17). -/
def Obligations.RunIsTheRepeatedStep : Prop :=
  ∀ (n : Nat) (s t : State) (why : StopReason), CacheCoherent s → runFor n s = (t, some why) →
    (why = .halt ∧ ∃ k, 0 < k ∧ k ≤ n ∧ StepsTo k s t ∧ Halted t) ∨
    (why = .breakpoint ∧ ∃ k, 0 < k ∧ k ≤ n ∧ StepsTo k s t ∧ t.pc ∈ t.host.bp) ∨
    (∃ f k, why = .failed f ∧ k < n ∧ StepsTo k s t ∧ step t = .fault f)

/-- RUN at an unconditional jump to its own address, with no breakpoint there, never stops (R115, R181). `RunDiverges` says
so of the bounded RUN, for every bound: that RUN takes a bound is the model's choice (DESIGN CHOICE, log 17). -/
def Obligations.RunAtAJumpToItselfNeverStops : Prop :=
  ∀ s : State, CacheCoherent s → decode (s.mem.fetchBytes s.pc) = .ok (.jmp s.pc) → s.pc ∉ s.host.bp →
    RunDiverges s

/-- NEXT over a call stops with RETURNED only when the stack pointer has its value from before the call; over anything
else it is STEP (R153). The bound `n` on the number of executions is the model's choice (DESIGN CHOICE, log 17). -/
def Obligations.NextReturnsWithTheStackPointerOfTheCall : Prop :=
  (∀ (n : Nat) (s t : State), cachedCall s = true → commandNext n s = (t, .stopped .returned) → t.sp = s.sp) ∧
  (∀ (n : Nat) (s : State), cachedCall s = false → commandNext n s = commandStep s)

/-- R154: JUMP sets the program counter and decodes there, and changes nothing else. -/
def Obligations.JumpCommandSetsTheCounterAndDecodes : Prop :=
  ∀ (a : Word) (s t : State) (r : Report), commandJump a s = (t, r) →
    t.pc = a ∧ CacheCoherent t ∧ t.regs = s.regs ∧ t.cc = s.cc ∧ t.mem = s.mem ∧ t.host.bp = s.host.bp

/-- The host's commands other than STEP, RUN, NEXT and JUMP leave the whole Machine State as it was; so does every line
that is no command (R37, R150). The bound `n` is the model's choice (DESIGN CHOICE, log 17). -/
def Obligations.OnlyExecutionAndJumpTouchTheMachine : Prop :=
  ∀ (n : Nat) (s : State) (line : Input),
    line ≠ .emptyLine → line ≠ .command .step → line ≠ .command .run → line ≠ .command .next →
    (∀ a, line ≠ .command (.jump a)) → MachineSame s (hostInput n line s).1

/-- R156: EXAMINE reads the quad, reports a failure outside the image, and changes nothing. -/
def Obligations.ExamineReadsAQuadAndChangesNothing : Prop :=
  ∀ (a : Word) (s : State), (commandExamine a s).1 = s ∧
    (s.mem.size ≤ a.toNat + 7 → (commandExamine a s).2 = .quad none) ∧
    (a.toNat + 7 < s.mem.size → ∃ v, (commandExamine a s).2 = .quad (some v) ∧ HoldsQuad s a v)

/-- R155: BREAK adds one address and DELETE removes one, each idempotent; a BREAK of an address that is not there, then its DELETE, is as
if neither had been. -/
def Obligations.BreakAndDeleteChangeOneAddress : Prop :=
  ∀ (a : Word) (s : State),
    (∀ b, b ∈ (commandBreak a s).1.host.bp ↔ b = a ∨ b ∈ s.host.bp) ∧
    (∀ b, b ∈ (commandDelete a s).1.host.bp ↔ b ≠ a ∧ b ∈ s.host.bp) ∧
    (commandBreak a (commandBreak a s).1).1 = (commandBreak a s).1 ∧
    (commandDelete a (commandDelete a s).1).1 = (commandDelete a s).1 ∧
    (a ∉ s.host.bp → (commandDelete a s).1 = s ∧ (commandDelete a (commandBreak a s).1).1 = s)

/-- An empty line after a command does what that command does, while the session goes on (R158). The bounds `n` and `k`
are the model's choice (DESIGN CHOICE, log 17). -/
def Obligations.EmptyLineRepeatsThePreviousCommand : Prop :=
  ∀ (n k : Nat) (c : Command) (s t : State) (r : Report), s.host.ended = false →
    hostInput n (.command c) s = (t, r) → hostInput k .emptyLine t = hostInput k (.command c) t
end

