-- ==== Sys2Proof/Laws/Memory.lean ====
section
/-!
SUPPORT. Laws of the Memory Image: a read after a write, what a write leaves alone, and that every operation keeps the
canonical form.
-/

namespace Sys2Proof.Machine.Memory

open Sys2Proof

/-! ### Lists of cells -/

theorem lookup_insertCell_same (cells : List Host.Cell) (a : Nat) (v : Byte)
    (h : ∀ c ∈ cells, c.1 ≠ a) : lookup (insertCell a v cells) a = v := by
  induction cells with
  | nil => simp [insertCell, lookup]
  | cons c rest ih =>
    obtain ⟨k, w⟩ := c
    have hk : k ≠ a := h (k, w) (by simp)
    have hr : ∀ c ∈ rest, c.1 ≠ a := fun c hc => h c (List.mem_cons_of_mem _ hc)
    by_cases hlt : a < k
    · simp [insertCell, lookup, hlt]
    · simp [insertCell, lookup, hlt, hk, ih hr]

theorem lookup_insertCell_other (cells : List Host.Cell) (a b : Nat) (v : Byte) (h : b ≠ a) :
    lookup (insertCell a v cells) b = lookup cells b := by
  induction cells with
  | nil => simp [insertCell, lookup, Ne.symm h]
  | cons c rest ih =>
    obtain ⟨k, w⟩ := c
    by_cases hlt : a < k
    · simp [insertCell, lookup, hlt, Ne.symm h]
    · simp [insertCell, lookup, hlt, ih]

theorem lookup_filter_same (cells : List Host.Cell) (a : Nat) :
    lookup (cells.filter fun c => c.1 != a) a = unlisted := by
  induction cells with
  | nil => rfl
  | cons c rest ih =>
    by_cases hk : c.1 = a
    · simpa [hk] using ih
    · simpa [hk, lookup] using ih

theorem lookup_filter_other (cells : List Host.Cell) (a b : Nat) (h : b ≠ a) :
    lookup (cells.filter fun c => c.1 != a) b = lookup cells b := by
  induction cells with
  | nil => rfl
  | cons c rest ih =>
    obtain ⟨k, w⟩ := c
    by_cases hk : k = a
    · subst hk
      simpa [lookup, Ne.symm h] using ih
    · simp [hk, lookup, ih]

/-- What a list of cells reads as after an update, on any list. -/
theorem lookup_updateCells (cells : List Host.Cell) (a b : Nat) (v : Byte) :
    lookup (updateCells cells a v) b = if b = a then v else lookup cells b := by
  unfold updateCells
  by_cases hv : v = unlisted <;> by_cases hb : b = a
  · subst hb; simp [hv, lookup_filter_same]
  · simp [hv, hb, lookup_filter_other]
  · subst hb
    simp only [hv, if_false, if_true]
    exact lookup_insertCell_same _ _ _ (by simp)
  · simp [hv, hb, lookup_insertCell_other, lookup_filter_other]

theorem mem_insertCell (cells : List Host.Cell) (a : Nat) (v : Byte) (c : Host.Cell) :
    c ∈ insertCell a v cells ↔ c = (a, v) ∨ c ∈ cells := by
  induction cells with
  | nil => simp [insertCell]
  | cons d rest ih =>
    obtain ⟨k, w⟩ := d
    by_cases hlt : a < k
    · simp [insertCell, hlt]
    · simp only [insertCell, hlt, if_false, List.mem_cons, ih]
      tauto

theorem pairwise_insertCell (cells : List Host.Cell) (a : Nat) (v : Byte)
    (hs : cells.Pairwise fun c d => c.1 < d.1) (hn : ∀ c ∈ cells, c.1 ≠ a) :
    (insertCell a v cells).Pairwise fun c d => c.1 < d.1 := by
  induction cells with
  | nil => simp [insertCell]
  | cons d rest ih =>
    obtain ⟨k, w⟩ := d
    rw [List.pairwise_cons] at hs
    have hk : k ≠ a := hn (k, w) (by simp)
    have hr : ∀ c ∈ rest, c.1 ≠ a := fun c hc => hn c (List.mem_cons_of_mem _ hc)
    by_cases hlt : a < k
    · simp only [insertCell, hlt, if_true, List.pairwise_cons, List.mem_cons]
      refine ⟨?_, hs⟩
      rintro c (rfl | hc)
      · exact hlt
      · exact lt_trans hlt (hs.1 c hc)
    · simp only [insertCell, hlt, if_false, List.pairwise_cons]
      refine ⟨fun c hc => ?_, ih hs.2 hr⟩
      rcases (mem_insertCell _ _ _ _).1 hc with rfl | hc
      · exact lt_of_le_of_ne (not_lt.1 hlt) hk
      · exact hs.1 c hc

/-! ### One byte -/

@[simp] theorem size_set (m : Memory) (a : Nat) (v : Byte) : (m.set a v).size = m.size := rfl

theorem get_set (m : Memory) (a b : Nat) (v : Byte) :
    (m.set a v).get b = if b = a then v else m.get b :=
  lookup_updateCells m.cells a b v

/-- A write inside the image keeps the canonical form. -/
theorem wf_set (m : Memory) (a : Nat) (v : Byte) (h : m.wf) (ha : a < m.size) : (m.set a v).wf := by
  obtain ⟨hsize, hs, hc⟩ := h
  have hf : (m.cells.filter fun c => c.1 != a).Pairwise fun c d => c.1 < d.1 := hs.filter _
  have hcf : ∀ c ∈ m.cells.filter (fun c => c.1 != a), c.1 < m.size ∧ c.2 ≠ unlisted := fun c h =>
    hc c (List.mem_of_mem_filter h)
  refine ⟨hsize, ?_, ?_⟩
  · by_cases hv : v = unlisted
    · simpa [set, updateCells, hv] using hf
    · simp only [set, updateCells, hv, if_false]
      exact pairwise_insertCell _ _ _ hf (by simp)
  · intro c hcm
    by_cases hv : v = unlisted
    · simp only [set, updateCells, hv, if_true] at hcm
      exact hcf c hcm
    · simp only [set, updateCells, hv, if_false] at hcm
      rcases (mem_insertCell _ _ _ _).1 hcm with rfl | h
      · exact ⟨ha, hv⟩
      · exact hcf c h

/-- Everything `readByte` can do (R41). -/
theorem readByte_eq_some (m : Memory) (a : Word) (v : Byte) :
    m.readByte a = some v ↔ a.toNat < m.size ∧ m.get a.toNat = v := by
  by_cases h : a.toNat < m.size <;> simp [readByte, h]

/-- Everything `writeByte` can do (R42). -/
theorem writeByte_eq_some (m m' : Memory) (a : Word) (v : Byte) :
    m.writeByte a v = some m' ↔ a.toNat < m.size ∧ m.set a.toNat v = m' := by
  by_cases h : a.toNat < m.size <;> simp [writeByte, h]

/-! ### Several bytes -/

@[simp] theorem size_setBytes (m : Memory) (a : Nat) (vs : List Byte) : (m.setBytes a vs).size = m.size := by
  induction vs generalizing m a with
  | nil => rfl
  | cons v vs ih => simp [setBytes, ih]

theorem get_setBytes (m : Memory) (a b : Nat) (vs : List Byte) :
    (m.setBytes a vs).get b = if a ≤ b then (vs[b - a]?).getD (m.get b) else m.get b := by
  induction vs generalizing m a with
  | nil => simp [setBytes]
  | cons v vs ih =>
    rw [setBytes, ih, get_set]
    by_cases hab : a ≤ b
    · by_cases he : b = a
      · subst he; simp
      · have h1 : a + 1 ≤ b := by omega
        obtain ⟨k, rfl⟩ : ∃ k, b = a + 1 + k := ⟨b - (a + 1), by omega⟩
        have h2 : a + 1 + k - a = k + 1 := by omega
        simp [h2, show a ≤ a + 1 + k by omega, show a + 1 + k ≠ a by omega]
    · have h1 : ¬ a + 1 ≤ b := by omega
      simp [hab, h1, show b ≠ a by omega]

/-- Writes that stay inside the image keep the canonical form. -/
theorem wf_setBytes (m : Memory) (a : Nat) (vs : List Byte) (h : m.wf) (ha : a + vs.length ≤ m.size) :
    (m.setBytes a vs).wf := by
  induction vs generalizing m a with
  | nil => exact h
  | cons v vs ih =>
    simp only [List.length_cons] at ha
    exact ih _ _ (wf_set m a v h (by omega)) (by simp only [size_set]; omega)

@[simp] theorem size_place (m : Memory) (a : Nat) (vs : List Byte) : (m.place a vs).size = m.size := by
  induction vs generalizing m a with
  | nil => rfl
  | cons v vs ih => unfold place; split <;> simp [ih]

theorem wf_place (m : Memory) (a : Nat) (vs : List Byte) (h : m.wf) : (m.place a vs).wf := by
  induction vs generalizing m a with
  | nil => exact h
  | cons v vs ih =>
    unfold place
    split
    · exact ih _ _ (wf_set m a v h (by assumption))
    · exact h

/-! ### Quads -/

@[simp] theorem length_bytesOfQuad (v : Word) : (bytesOfQuad v).length = 8 := rfl

theorem getElem?_bytesOfQuad (v : Word) (k : Nat) (h : k < 8) :
    (bytesOfQuad v)[k]? = some (byteOfQuad v k) := by
  interval_cases k <;> rfl

/-- The bytes of a quad put together give the quad. -/
theorem quadOfBytes_byteOfQuad (v : Word) :
    quadOfBytes (byteOfQuad v 0) (byteOfQuad v 1) (byteOfQuad v 2) (byteOfQuad v 3)
      (byteOfQuad v 4) (byteOfQuad v 5) (byteOfQuad v 6) (byteOfQuad v 7) = v := by
  apply BitVec.eq_of_getLsbD_eq
  intro i hi
  unfold quadOfBytes byteOfQuad
  simp only [BitVec.getLsbD_append, BitVec.getLsbD_extractLsb']
  interval_cases i <;> simp

/-- Everything `readQuad` can do (R43). -/
theorem readQuad_eq_some (m : Memory) (a v : Word) :
    m.readQuad a = some v ↔ a.toNat + 7 < m.size ∧
      quadOfBytes (m.get a.toNat) (m.get (a.toNat + 1)) (m.get (a.toNat + 2)) (m.get (a.toNat + 3))
        (m.get (a.toNat + 4)) (m.get (a.toNat + 5)) (m.get (a.toNat + 6)) (m.get (a.toNat + 7)) = v := by
  by_cases h : a.toNat + 7 < m.size <;> simp [readQuad, h]

theorem readQuad_eq_none (m : Memory) (a : Word) : m.readQuad a = none ↔ m.size ≤ a.toNat + 7 := by
  by_cases h : a.toNat + 7 < m.size
  · simp [readQuad, h]
  · simp [readQuad, h]; omega

theorem writeQuad_eq_none (m : Memory) (a v : Word) : m.writeQuad a v = none ↔ m.size ≤ a.toNat + 7 := by
  by_cases h : a.toNat + 7 < m.size
  · simp [writeQuad, h]
  · simp [writeQuad, h]; omega

/-- Everything `writeQuad` can do (R44): the length is kept, the eight bytes are those of the value, and every other byte
is as it was. -/
theorem writeQuad_spec (m m' : Memory) (a v : Word) (h : m.writeQuad a v = some m') :
    a.toNat + 7 < m.size ∧ m'.size = m.size ∧
      (∀ k, k < 8 → m'.get (a.toNat + k) = byteOfQuad v k) ∧
      ∀ b, (b < a.toNat ∨ a.toNat + 8 ≤ b) → m'.get b = m.get b := by
  unfold writeQuad at h
  split at h
  next hb =>
    cases h
    refine ⟨hb, size_setBytes _ _ _, fun k hk => ?_, fun b hb' => ?_⟩
    · rw [get_setBytes]
      simp [getElem?_bytesOfQuad v k hk]
    · rw [get_setBytes]
      by_cases hab : a.toNat ≤ b
      · have : (bytesOfQuad v)[b - a.toNat]? = none := by
          rw [List.getElem?_eq_none_iff, length_bytesOfQuad]; omega
        simp [this]
      · simp [hab]
  next => exact absurd h (by simp)

theorem writeQuad_wf (m m' : Memory) (a v : Word) (hm : m.wf) (h : m.writeQuad a v = some m') : m'.wf := by
  unfold writeQuad at h
  split at h
  next hb => cases h; exact wf_setBytes _ _ _ hm (by rw [length_bytesOfQuad]; omega)
  next => exact absurd h (by simp)

theorem writeByte_wf (m m' : Memory) (a : Word) (v : Byte) (hm : m.wf) (h : m.writeByte a v = some m') :
    m'.wf := by
  obtain ⟨hb, rfl⟩ := (writeByte_eq_some m m' a v).1 h
  exact wf_set _ _ _ hm hb

/-- The image of a nonempty buffer of a legal length is in canonical form. -/
theorem wf_ofBuffer (bytes : List Byte) (h0 : 0 < bytes.length) (h1 : bytes.length < 2 ^ 64) :
    (ofBuffer bytes).wf :=
  wf_place _ _ _ ⟨⟨h0, h1⟩, List.Pairwise.nil, by simp⟩

/-! ### The Decoder's window -/

/-- The window is as long as asked, or as the image reaches. -/
theorem length_window (m : Memory) (a n : Nat) : (m.window a n).length = min n (m.size - a) := by
  induction n generalizing a with
  | zero => simp [window]
  | succ n ih =>
    unfold window
    split
    · rw [List.length_cons, ih]; omega
    · rw [List.length_nil]; omega

/-- Byte `k` of the window is the image's byte, and it is missing exactly where the image or the window ends. -/
theorem getElem?_window (m : Memory) (a n k : Nat) :
    (m.window a n)[k]? = if k < n ∧ a + k < m.size then some (m.get (a + k)) else none := by
  induction n generalizing a k with
  | zero => simp [window]
  | succ n ih =>
    unfold window
    by_cases ha : a < m.size
    · rw [if_pos ha]
      cases k with
      | zero => simp [ha]
      | succ k =>
        rw [List.getElem?_cons_succ, ih (a + 1) k]
        simp only [show a + 1 + k = a + (k + 1) by omega, Nat.add_lt_add_iff_right]
    · rw [if_neg ha, if_neg (by omega)]
      rfl

end Sys2Proof.Machine.Memory
end

