-- ==== Sys2Proof/Laws/Decode.lean ====
section
/-!
SUPPORT. Laws of the Decoder's bit fields, codes and stages.
-/

namespace Sys2Proof

/-! ### Bit fields -/

@[simp] theorem highNibble_append (h l : Nibble) : highNibble (h ++ l) = h := by
  revert h l; decide

@[simp] theorem lowNibble_append (h l : Nibble) : lowNibble (h ++ l) = l := by
  revert h l; decide

/-- A byte is its two nibbles (R10). -/
theorem highNibble_append_lowNibble (b : Byte) : highNibble b ++ lowNibble b = b := by
  revert b; decide

/-- A quad in memory order, and whatever follows it, reads as that quad. -/
@[simp] theorem quadOfList_bytesOfQuad (v : Word) (rest : List Byte) :
    quadOfList (bytesOfQuad v ++ rest) = some v :=
  congrArg some (Machine.Memory.quadOfBytes_byteOfQuad v)

/-- The bytes of an assembled quad are the bytes it was assembled from. -/
theorem bytesOfQuad_quadOfBytes (b0 b1 b2 b3 b4 b5 b6 b7 : Byte) :
    bytesOfQuad (quadOfBytes b0 b1 b2 b3 b4 b5 b6 b7) = [b0, b1, b2, b3, b4, b5, b6, b7] := by
  have key : ∀ (k : Nat) (b : Byte), (∀ i, i < 8 →
      (quadOfBytes b0 b1 b2 b3 b4 b5 b6 b7).getLsbD (8 * k + i) = b.getLsbD i) →
      byteOfQuad (quadOfBytes b0 b1 b2 b3 b4 b5 b6 b7) k = b := by
    intro k b h
    apply BitVec.eq_of_getLsbD_eq
    intro i hi
    simp [byteOfQuad, hi, h i hi]
  simp only [bytesOfQuad, List.cons.injEq, and_true]
  refine ⟨key 0 b0 ?_, key 1 b1 ?_, key 2 b2 ?_, key 3 b3 ?_, key 4 b4 ?_, key 5 b5 ?_, key 6 b6 ?_, key 7 b7 ?_⟩
    <;> intro i hi <;> simp only [quadOfBytes, BitVec.getLsbD_append] <;> interval_cases i <;> rfl

/-- A list that reads as a quad begins with that quad's bytes. -/
theorem eq_bytesOfQuad_of_quadOfList (bs : List Byte) (v : Word) (h : quadOfList bs = some v) :
    ∃ rest, bs = bytesOfQuad v ++ rest := by
  unfold quadOfList at h
  split at h
  next b0 b1 b2 b3 b4 b5 b6 b7 rest =>
    cases h
    exact ⟨rest, by rw [bytesOfQuad_quadOfBytes]; rfl⟩
  next => cases h

/-- A list reads as no quad exactly when it has fewer than eight bytes (R43). -/
theorem quadOfList_eq_none (bs : List Byte) : quadOfList bs = none ↔ bs.length < 8 := by
  match bs with
  | [] | [_] | [_, _] | [_, _, _] | [_, _, _, _] | [_, _, _, _, _] | [_, _, _, _, _, _] | [_, _, _, _, _, _, _] =>
    simp [quadOfList]
  | _ :: _ :: _ :: _ :: _ :: _ :: _ :: _ :: _ => simp [quadOfList]

/-! ### Codes -/

@[simp] theorem OpClass.ofCode_code (c : OpClass) : OpClass.ofCode c.code = some c := by cases c <;> rfl

theorem OpClass.code_of_ofCode (n : Nibble) (c : OpClass) (h : OpClass.ofCode n = some c) : c.code = n := by
  have key : ∀ n : Nibble, ∀ c ∈ OpClass.ofCode n, c.code = n := by decide
  exact key n c h

@[simp] theorem Predicate.ofCode_code (p : Predicate) : Predicate.ofCode p.code = some p := by cases p <;> rfl

theorem Predicate.code_of_ofCode (f : Nibble) (p : Predicate) (h : Predicate.ofCode f = some p) : p.code = f := by
  have key : ∀ f : Nibble, ∀ p ∈ Predicate.ofCode f, p.code = f := by decide
  exact key f p h

theorem AluOp.code_of_ofCode (f : Nibble) (op : AluOp) (h : AluOp.ofCode f = some op) : op.code = f := by
  have key : ∀ f : Nibble, ∀ op ∈ AluOp.ofCode f, op.code = f := by decide
  exact key f op h

@[simp] theorem AluOp.ofCode_code (op : AluOp) : AluOp.ofCode op.code = some op := by cases op <;> rfl

/-- Every predicate code of R69 is in `CMOV_FN_LEGAL` at its default (R72). -/
@[simp] theorem cmovCodeLegal_code (p : Predicate) : cmovCodeLegal p.code = true := by cases p <;> rfl

/-! ### The stages of a decode -/

/-- Everything `decodeClass` can do (R73): the register byte is missing, the constant is missing, or all was read and the
status is the verdict. -/
theorem decodeClass_cases (c : OpClass) (i : Record) (bs : List Byte) :
    (i.withRegByte c bs = none ∧ decodeClass c i bs = (i, .tooShort)) ∨
    (∃ i2, i.withRegByte c bs = some i2 ∧ i2.withConst c bs = none ∧ decodeClass c i bs = (i2, .tooShort)) ∨
    (∃ i2 i3, i.withRegByte c bs = some i2 ∧ i2.withConst c bs = some i3 ∧
      decodeClass c i bs = (i3, i3.verdict c)) := by
  unfold decodeClass
  cases h1 : i.withRegByte c bs with
  | none => exact .inl ⟨rfl, rfl⟩
  | some i2 =>
    cases h2 : i2.withConst c bs with
    | none => exact .inr (.inl ⟨i2, rfl, h2, by simp [h2]⟩)
    | some i3 => exact .inr (.inr ⟨i2, i3, rfl, h2, by simp [h2]⟩)

/-- A verdict is never TOO_SHORT (R62). -/
theorem Record.verdict_ne_tooShort (i : Record) (c : OpClass) : i.verdict c ≠ .tooShort := by
  unfold Record.verdict
  split
  · split <;> simp
  · simp

/-- What a decode yields does not depend on the address it was made at: only the record's addresses do (R73). -/
theorem decodeRecord_addr (pc : Word) (bs : List Byte) :
    ∃ p a, decodeRecord pc bs =
      ({ (decodeRecord 0 bs).1 with valP := p, addr := a }, (decodeRecord 0 bs).2) := by
  cases bs with
  | nil => exact ⟨_, _, rfl⟩
  | cons b0 bs =>
    simp only [decodeRecord, Record.withOpcode, Record.default]
    cases OpClass.ofCode (highNibble b0) with
    | none => exact ⟨_, _, rfl⟩
    | some c =>
      simp only [decodeClass, Record.withRegByte, Record.withConst]
      cases c.hasRegByte <;> cases c.hasConst <;>
        simp only [if_true, if_false, Bool.false_eq_true] <;>
        cases (b0 :: bs)[1]? <;>
        cases quadOfList ((b0 :: bs).drop c.constOffset) <;>
        exact ⟨_, _, rfl⟩

/-- The instruction that a decode at any address yields is the one that `decode` reads from the bytes. -/
theorem instrOfDecoded_decodeRecord (pc : Word) (bs : List Byte) :
    instrOfDecoded (decodeRecord pc bs).1 (decodeRecord pc bs).2 = decode bs := by
  obtain ⟨p, a, h⟩ := decodeRecord_addr pc bs
  rw [h]
  rfl

/-! ### Whole instructions -/

/-- The decode of an instruction of format F1 (R66, R73): every field is the one encoded. -/
theorem decodeRecord_encodeF1 (pc : Word) (c : OpClass) (f : Nibble) (rest : List Byte)
    (hr : c.hasRegByte = false) (hc : c.hasConst = false) :
    decodeRecord pc (encodeF1 c.code f ++ rest) =
      (let i : Record := ⟨c.code, f, noReg, noReg, 0, pc + BitVec.ofNat 64 1, pc⟩
       (i, i.verdict c)) := by
  simp [decodeRecord, encodeF1, Record.withOpcode, Record.default, decodeClass,
    Record.withRegByte, Record.withConst, hr, hc, OpClass.length]

/-- The decode of an instruction of format F2 (R66, R73): every field is the one encoded. -/
theorem decodeRecord_encodeF2 (pc : Word) (c : OpClass) (f : Nibble) (rA rB : RegId) (rest : List Byte)
    (hr : c.hasRegByte = true) (hc : c.hasConst = false) :
    decodeRecord pc (encodeF2 c.code f rA rB ++ rest) =
      (let i : Record := ⟨c.code, f, rA, rB, 0, pc + BitVec.ofNat 64 2, pc⟩
       (i, i.verdict c)) := by
  simp [decodeRecord, encodeF2, Record.withOpcode, Record.default, decodeClass,
    Record.withRegByte, Record.withConst, hr, hc, OpClass.length]

/-- The decode of an instruction of format F9 (R66, R73): every field is the one encoded. -/
theorem decodeRecord_encodeF9 (pc : Word) (c : OpClass) (f : Nibble) (v : Word) (rest : List Byte)
    (hr : c.hasRegByte = false) (hc : c.hasConst = true) :
    decodeRecord pc (encodeF9 c.code f v ++ rest) =
      (let i : Record := ⟨c.code, f, noReg, noReg, v, pc + BitVec.ofNat 64 9, pc⟩
       (i, i.verdict c)) := by
  simp [decodeRecord, encodeF9, Record.withOpcode, Record.default, decodeClass,
    Record.withRegByte, Record.withConst, hr, hc, OpClass.length, OpClass.constOffset]

/-- The decode of an instruction of format F10 (R66, R73): every field is the one encoded. -/
theorem decodeRecord_encodeF10 (pc : Word) (c : OpClass) (f : Nibble) (rA rB : RegId) (v : Word) (rest : List Byte)
    (hr : c.hasRegByte = true) (hc : c.hasConst = true) :
    decodeRecord pc (encodeF10 c.code f rA rB v ++ rest) =
      (let i : Record := ⟨c.code, f, rA, rB, v, pc + BitVec.ofNat 64 10, pc⟩
       (i, i.verdict c)) := by
  simp [decodeRecord, encodeF10, Record.withOpcode, Record.default, decodeClass,
    Record.withRegByte, Record.withConst, hr, hc, OpClass.length, OpClass.constOffset]

end Sys2Proof
end

