-- ==== Sys2Proof/Laws/State.lean ====
section
/-!
SUPPORT. One lemma for each field under each update of the state, so that no later proof unfolds a record update, and the
laws of the register file.
-/

namespace Sys2Proof.Machine

open Sys2Proof

/-! ### `setPc` -/

@[simp] theorem State.setPc_regs (s : State) (t : Word) : (s.setPc t).regs = s.regs := rfl
@[simp] theorem State.setPc_cc (s : State) (t : Word) : (s.setPc t).cc = s.cc := rfl
@[simp] theorem State.setPc_pc (s : State) (t : Word) : (s.setPc t).pc = t := rfl
@[simp] theorem State.setPc_mem (s : State) (t : Word) : (s.setPc t).mem = s.mem := rfl
@[simp] theorem State.setPc_host (s : State) (t : Word) : (s.setPc t).host = s.host := rfl
@[simp] theorem State.setPc_reg (s : State) (t : Word) (i : Fin 15) : (s.setPc t).reg i = s.reg i := rfl
@[simp] theorem State.setPc_readReg (s : State) (t : Word) (r : RegId) : (s.setPc t).readReg r = s.readReg r := rfl
@[simp] theorem State.setPc_sp (s : State) (t : Word) : (s.setPc t).sp = s.sp := rfl

/-! ### `setCc` -/

@[simp] theorem State.setCc_regs (s : State) (c : CC) : (s.setCc c).regs = s.regs := rfl
@[simp] theorem State.setCc_cc (s : State) (c : CC) : (s.setCc c).cc = c := rfl
@[simp] theorem State.setCc_pc (s : State) (c : CC) : (s.setCc c).pc = s.pc := rfl
@[simp] theorem State.setCc_mem (s : State) (c : CC) : (s.setCc c).mem = s.mem := rfl
@[simp] theorem State.setCc_host (s : State) (c : CC) : (s.setCc c).host = s.host := rfl
@[simp] theorem State.setCc_reg (s : State) (c : CC) (i : Fin 15) : (s.setCc c).reg i = s.reg i := rfl
@[simp] theorem State.setCc_readReg (s : State) (c : CC) (r : RegId) : (s.setCc c).readReg r = s.readReg r := rfl

/-! ### `setReg` -/

@[simp] theorem State.setReg_cc (s : State) (i : Fin 15) (v : Word) : (s.setReg i v).cc = s.cc := rfl
@[simp] theorem State.setReg_pc (s : State) (i : Fin 15) (v : Word) : (s.setReg i v).pc = s.pc := rfl
@[simp] theorem State.setReg_mem (s : State) (i : Fin 15) (v : Word) : (s.setReg i v).mem = s.mem := rfl
@[simp] theorem State.setReg_host (s : State) (i : Fin 15) (v : Word) : (s.setReg i v).host = s.host := rfl

/-- A register after a write: the value written, or what it was. -/
theorem State.setReg_reg (s : State) (i j : Fin 15) (v : Word) :
    (s.setReg i v).reg j = if j = i then v else s.reg j := by
  unfold State.setReg State.reg
  by_cases h : j = i
  · subst h; simp
  · rw [if_neg h]
    exact Vector.getElem_set_ne i.isLt j.isLt (fun e => h (Fin.ext e.symm))

/-! ### `setMem` -/

@[simp] theorem State.setMem_regs (s : State) (m : Memory) : (s.setMem m).regs = s.regs := rfl
@[simp] theorem State.setMem_cc (s : State) (m : Memory) : (s.setMem m).cc = s.cc := rfl
@[simp] theorem State.setMem_pc (s : State) (m : Memory) : (s.setMem m).pc = s.pc := rfl
@[simp] theorem State.setMem_mem (s : State) (m : Memory) : (s.setMem m).mem = m := rfl
@[simp] theorem State.setMem_host (s : State) (m : Memory) : (s.setMem m).host = s.host := rfl
@[simp] theorem State.setMem_reg (s : State) (m : Memory) (i : Fin 15) : (s.setMem m).reg i = s.reg i := rfl
@[simp] theorem State.setMem_readReg (s : State) (m : Memory) (r : RegId) : (s.setMem m).readReg r = s.readReg r := rfl
@[simp] theorem State.setMem_sp (s : State) (m : Memory) : (s.setMem m).sp = s.sp := rfl

/-! ### `setHost` and the updates of one field of the host -/

@[simp] theorem State.setHost_regs (s : State) (h : HostState) : (s.setHost h).regs = s.regs := rfl
@[simp] theorem State.setHost_cc (s : State) (h : HostState) : (s.setHost h).cc = s.cc := rfl
@[simp] theorem State.setHost_pc (s : State) (h : HostState) : (s.setHost h).pc = s.pc := rfl
@[simp] theorem State.setHost_mem (s : State) (h : HostState) : (s.setHost h).mem = s.mem := rfl
@[simp] theorem State.setHost_host (s : State) (h : HostState) : (s.setHost h).host = h := rfl

@[simp] theorem State.setCi_regs (s : State) (c : CachedInstr) : (s.setCi c).regs = s.regs := rfl
@[simp] theorem State.setCi_cc (s : State) (c : CachedInstr) : (s.setCi c).cc = s.cc := rfl
@[simp] theorem State.setCi_pc (s : State) (c : CachedInstr) : (s.setCi c).pc = s.pc := rfl
@[simp] theorem State.setCi_mem (s : State) (c : CachedInstr) : (s.setCi c).mem = s.mem := rfl
@[simp] theorem State.setCi_ci (s : State) (c : CachedInstr) : (s.setCi c).host.ci = c := rfl
@[simp] theorem State.setCi_bp (s : State) (c : CachedInstr) : (s.setCi c).host.bp = s.host.bp := rfl
@[simp] theorem State.setCi_previous (s : State) (c : CachedInstr) :
    (s.setCi c).host.previous = s.host.previous := rfl
@[simp] theorem State.setCi_ended (s : State) (c : CachedInstr) : (s.setCi c).host.ended = s.host.ended := rfl
@[simp] theorem State.setCi_setCi (s : State) (c d : CachedInstr) : (s.setCi c).setCi d = s.setCi d := rfl
@[simp] theorem State.setCi_self (s : State) : s.setCi s.host.ci = s := rfl
@[simp] theorem State.setCi_decodeHere (s : State) (c : CachedInstr) : (s.setCi c).decodeHere = s.decodeHere := rfl

@[simp] theorem State.redecode_regs (s : State) : s.redecode.regs = s.regs := rfl
@[simp] theorem State.redecode_cc (s : State) : s.redecode.cc = s.cc := rfl
@[simp] theorem State.redecode_pc (s : State) : s.redecode.pc = s.pc := rfl
@[simp] theorem State.redecode_mem (s : State) : s.redecode.mem = s.mem := rfl
@[simp] theorem State.redecode_ci (s : State) : s.redecode.host.ci = s.decodeHere := rfl
@[simp] theorem State.redecode_bp (s : State) : s.redecode.host.bp = s.host.bp := rfl
@[simp] theorem State.redecode_reg (s : State) (i : Fin 15) : s.redecode.reg i = s.reg i := rfl
@[simp] theorem State.redecode_readReg (s : State) (r : RegId) : s.redecode.readReg r = s.readReg r := rfl
@[simp] theorem State.redecode_decodeHere (s : State) : s.redecode.decodeHere = s.decodeHere := rfl

@[simp] theorem State.setBp_regs (s : State) (bp : List Word) : (s.setBp bp).regs = s.regs := rfl
@[simp] theorem State.setBp_cc (s : State) (bp : List Word) : (s.setBp bp).cc = s.cc := rfl
@[simp] theorem State.setBp_pc (s : State) (bp : List Word) : (s.setBp bp).pc = s.pc := rfl
@[simp] theorem State.setBp_mem (s : State) (bp : List Word) : (s.setBp bp).mem = s.mem := rfl
@[simp] theorem State.setBp_bp (s : State) (bp : List Word) : (s.setBp bp).host.bp = bp := rfl
@[simp] theorem State.setBp_ci (s : State) (bp : List Word) : (s.setBp bp).host.ci = s.host.ci := rfl

@[simp] theorem State.setPrevious_regs (s : State) (c : Command) : (s.setPrevious c).regs = s.regs := rfl
@[simp] theorem State.setPrevious_cc (s : State) (c : Command) : (s.setPrevious c).cc = s.cc := rfl
@[simp] theorem State.setPrevious_pc (s : State) (c : Command) : (s.setPrevious c).pc = s.pc := rfl
@[simp] theorem State.setPrevious_mem (s : State) (c : Command) : (s.setPrevious c).mem = s.mem := rfl
@[simp] theorem State.setPrevious_bp (s : State) (c : Command) : (s.setPrevious c).host.bp = s.host.bp := rfl
@[simp] theorem State.setPrevious_ci (s : State) (c : Command) : (s.setPrevious c).host.ci = s.host.ci := rfl

/-! ### Register identifiers -/

/-- The register of an identifier is its number (R20). -/
theorem regIndex_eq_some (r : RegId) (i : Fin 15) : regIndex r = some i ↔ r.toNat = i.val := by
  unfold regIndex
  split
  · simp [Fin.ext_iff]
  · simp only [false_iff, reduceCtorEq]
    omega

/-- Only the "none" identifier has no register (R21). -/
theorem regIndex_eq_none (r : RegId) : regIndex r = none ↔ r = noReg := by
  revert r; decide

/-- Distinct identifiers name distinct registers (R25). -/
theorem regIndex_injective (r q : RegId) (i : Fin 15) (hr : regIndex r = some i) (hq : regIndex q = some i) :
    r = q := by
  rw [regIndex_eq_some] at hr hq
  exact BitVec.eq_of_toNat_eq (hr.trans hq.symm)

theorem present_iff (r : RegId) : present r = true ↔ r ≠ noReg := by
  simp [present]

/-- A present identifier names a register. -/
theorem exists_regIndex (r : RegId) (h : r ≠ noReg) : ∃ i, regIndex r = some i := by
  cases hr : regIndex r with
  | none => exact absurd ((regIndex_eq_none r).1 hr) h
  | some i => exact ⟨i, rfl⟩

@[simp] theorem State.readReg_noReg (s : State) : s.readReg noReg = none := rfl

theorem State.readReg_of_regIndex (s : State) (r : RegId) (i : Fin 15) (h : regIndex r = some i) :
    s.readReg r = some (s.reg i) := by
  simp [State.readReg, h]

/-- What an identifier reads as after a register is written. -/
theorem State.setReg_readReg (s : State) (r q : RegId) (i : Fin 15) (v : Word) (h : regIndex r = some i) :
    (s.setReg i v).readReg q = if q = r then some v else s.readReg q := by
  by_cases hq : q = r
  · subst hq
    simp [State.readReg, h, State.setReg_reg]
  · rw [if_neg hq]
    unfold State.readReg
    cases hi : regIndex q with
    | none => rfl
    | some j =>
      have : j ≠ i := fun e => hq (regIndex_injective q r i (e ▸ hi) h)
      simp [State.setReg_reg, this]

end Sys2Proof.Machine
end

