-- ==== Sys2Proof/Laws/Ops.lean ====
section
/-!
SUPPORT. For each shared operation, what it can do, said once. The inversion lemmas (`…_next`) say: if the operation
answers a next state, then this is the case. The equations (`…_of_…`) say what it answers where its condition holds.
-/

namespace Sys2Proof.Machine

open Sys2Proof

/-! ### Continuations -/

/-- `withReg` goes on exactly when the identifier names a register. -/
theorem withReg_next (r : RegId) (k : Fin 15 → Outcome) (t : State) (h : withReg r k = .next t) :
    ∃ i, regIndex r = some i ∧ k i = .next t := by
  unfold withReg at h
  split at h
  next i hi => exact ⟨i, hi, h⟩
  next => cases h

theorem withReg_of_regIndex (r : RegId) (k : Fin 15 → Outcome) (i : Fin 15) (h : regIndex r = some i) :
    withReg r k = k i := by
  simp [withReg, h]

theorem withReg_noReg (k : Fin 15 → Outcome) : withReg noReg k = .fault .notExecutable := rfl

theorem withReg_fault (r : RegId) (k : Fin 15 → Outcome) (f : Fault) (h : withReg r k = .fault f) :
    (r = noReg ∧ f = .notExecutable) ∨ ∃ i, regIndex r = some i ∧ k i = .fault f := by
  unfold withReg at h
  split at h
  next i hi => exact .inr ⟨i, hi, h⟩
  next hn => cases h; exact .inl ⟨(regIndex_eq_none r).1 hn, rfl⟩

/-- `withQuad` goes on exactly when the quad lies inside the image. -/
theorem withQuad_next (s : State) (a : Word) (k : Word → Outcome) (t : State) (h : withQuad s a k = .next t) :
    ∃ v, s.readQuad a = some v ∧ k v = .next t := by
  unfold withQuad at h
  split at h
  next v hv => exact ⟨v, hv, h⟩
  next => cases h

theorem withQuad_of_some (s : State) (a v : Word) (k : Word → Outcome) (h : s.readQuad a = some v) :
    withQuad s a k = k v := by
  simp [withQuad, h]

theorem withQuad_fault (s : State) (a : Word) (k : Word → Outcome) (f : Fault) (h : withQuad s a k = .fault f) :
    (s.readQuad a = none ∧ f = .memReadOob) ∨ ∃ v, s.readQuad a = some v ∧ k v = .fault f := by
  unfold withQuad at h
  split at h
  next v hv => exact .inr ⟨v, hv, h⟩
  next hn => cases h; exact .inl ⟨hn, rfl⟩

/-- `storingQuad` goes on exactly when the quad lies inside the image, from the state with the image written. -/
theorem storingQuad_next (s : State) (a v : Word) (k : State → Outcome) (t : State)
    (h : storingQuad s a v k = .next t) :
    ∃ m, s.mem.writeQuad a v = some m ∧ k (s.setMem m) = .next t := by
  unfold storingQuad State.writeQuad at h
  cases hm : s.mem.writeQuad a v with
  | none => rw [hm] at h; cases h
  | some m => rw [hm] at h; exact ⟨m, rfl, h⟩

theorem storingQuad_of_some (s : State) (a v : Word) (k : State → Outcome) (m : Memory)
    (h : s.mem.writeQuad a v = some m) : storingQuad s a v k = k (s.setMem m) := by
  simp [storingQuad, State.writeQuad, h]

theorem storingQuad_fault (s : State) (a v : Word) (k : State → Outcome) (f : Fault)
    (h : storingQuad s a v k = .fault f) :
    (s.mem.writeQuad a v = none ∧ f = .memWriteOob) ∨
      ∃ m, s.mem.writeQuad a v = some m ∧ k (s.setMem m) = .fault f := by
  unfold storingQuad State.writeQuad at h
  cases hm : s.mem.writeQuad a v with
  | none => rw [hm] at h; cases h; exact .inl ⟨rfl, rfl⟩
  | some m => rw [hm] at h; exact .inr ⟨m, rfl, h⟩

theorem fallThrough_next (s t : State) (c : OpClass) (h : fallThrough s c = .next t) : t = s.setPc (s.valP c) := by
  cases h; rfl

/-- `pushing` goes on with the quad written below the stack pointer and the stack pointer decremented. -/
theorem pushing_next (s : State) (v : Word) (k : State → Outcome) (t : State) (h : pushing s v k = .next t) :
    ∃ m, s.mem.writeQuad (pushAddress s) v = some m ∧
      k ((s.setMem m).setSp (pushAddress s)) = .next t :=
  storingQuad_next _ _ _ _ _ h

/-! ### Families -/

/-- Everything a conditional move can do when it answers a next state (R90). -/
theorem conditionalMove_next (p : Predicate) (rA rB : RegId) (s t : State)
    (h : conditionalMove p rA rB s = .next t) :
    ∃ a b, regIndex rA = some a ∧ regIndex rB = some b ∧
      t = (if cond p s.cc then s.setReg b (s.reg a) else s).setPc (s.valP .cmov) := by
  unfold conditionalMove at h
  split at h
  next =>
    obtain ⟨a, ha, h⟩ := withReg_next _ _ _ h
    obtain ⟨b, hb, h⟩ := withReg_next _ _ _ h
    refine ⟨a, b, ha, hb, ?_⟩
    rw [fallThrough_next _ _ _ h]
    split <;> rfl
  next => cases h

/-- Everything an arithmetic instruction can do when it answers a next state (R103). -/
theorem arithmetic_next (op : AluOp) (rA rB : RegId) (s t : State) (h : arithmetic op rA rB s = .next t) :
    ∃ a b r, regIndex rA = some a ∧ regIndex rB = some b ∧ aluResult op (s.reg b) (s.reg a) = .ok r ∧
      t = ((s.setReg b r).setCc (flags r)).setPc (s.valP .opq) := by
  unfold arithmetic at h
  obtain ⟨a, ha, h⟩ := withReg_next _ _ _ h
  obtain ⟨b, hb, h⟩ := withReg_next _ _ _ h
  split at h
  next r hr => exact ⟨a, b, r, ha, hb, hr, fallThrough_next _ _ _ h⟩
  next => cases h

/-- Everything a jump can do: it always answers a next state, which differs in the program counter alone (R115). -/
theorem conditionalJump_eq (p : Predicate) (t : Word) (s : State) :
    conditionalJump p t s = .next (s.setPc (if cond p s.cc then t else s.valP .jump)) := by
  unfold conditionalJump fallThrough
  split <;> rfl

/-- Everything load-immediate can do when it answers a next state (R98). -/
theorem execIrmovq_next (rB : RegId) (v : Word) (s t : State) (h : execIrmovq rB v s = .next t) :
    ∃ b, regIndex rB = some b ∧ t = (s.setReg b v).setPc (s.valP .irmov) := by
  obtain ⟨b, hb, h⟩ := withReg_next _ _ _ h
  exact ⟨b, hb, fallThrough_next _ _ _ h⟩

/-- Everything the store can do when it answers a next state (R99). -/
theorem execRmmovq_next (rA rB : RegId) (d : Word) (s t : State) (h : execRmmovq rA rB d s = .next t) :
    ∃ a b m, regIndex rA = some a ∧ regIndex rB = some b ∧
      s.mem.writeQuad (effectiveAddress (s.reg b) d) (s.reg a) = some m ∧
      t = (s.setMem m).setPc (s.valP .rmmov) := by
  obtain ⟨a, ha, h⟩ := withReg_next _ _ _ h
  obtain ⟨b, hb, h⟩ := withReg_next _ _ _ h
  obtain ⟨m, hm, h⟩ := storingQuad_next _ _ _ _ _ h
  exact ⟨a, b, m, ha, hb, hm, fallThrough_next _ _ _ h⟩

/-- Everything the load can do when it answers a next state (R100). -/
theorem execMrmovq_next (rA rB : RegId) (d : Word) (s t : State) (h : execMrmovq rA rB d s = .next t) :
    ∃ a b v, regIndex rA = some a ∧ regIndex rB = some b ∧
      s.readQuad (effectiveAddress (s.reg b) d) = some v ∧ t = (s.setReg a v).setPc (s.valP .mrmov) := by
  obtain ⟨a, ha, h⟩ := withReg_next _ _ _ h
  obtain ⟨b, hb, h⟩ := withReg_next _ _ _ h
  obtain ⟨v, hv, h⟩ := withQuad_next _ _ _ _ h
  exact ⟨a, b, v, ha, hb, hv, fallThrough_next _ _ _ h⟩

/-- Everything call can do when it answers a next state (R123). -/
theorem execCall_next (c : Word) (s t : State) (h : execCall c s = .next t) :
    ∃ m, s.mem.writeQuad (pushAddress s) (s.valP .call) = some m ∧
      t = ((s.setMem m).setSp (pushAddress s)).setPc c := by
  obtain ⟨m, hm, h⟩ := pushing_next _ _ _ _ h
  cases h
  exact ⟨m, hm, rfl⟩

/-- Everything return can do when it answers a next state (R124). -/
theorem execRet_next (s t : State) (h : execRet s = .next t) :
    ∃ v, s.readQuad s.sp = some v ∧ t = (s.setSp (popAddress s.sp)).setPc v := by
  obtain ⟨v, hv, h⟩ := withQuad_next _ _ _ _ h
  cases h
  exact ⟨v, hv, rfl⟩

/-- Everything push can do when it answers a next state (R127). -/
theorem execPushq_next (rA : RegId) (s t : State) (h : execPushq rA s = .next t) :
    ∃ a m, regIndex rA = some a ∧ s.mem.writeQuad (pushAddress s) (s.reg a) = some m ∧
      t = ((s.setMem m).setSp (pushAddress s)).setPc (s.valP .push) := by
  obtain ⟨a, ha, h⟩ := withReg_next _ _ _ h
  obtain ⟨m, hm, h⟩ := pushing_next _ _ _ _ h
  exact ⟨a, m, ha, hm, fallThrough_next _ _ _ h⟩

/-- Everything pop can do when it answers a next state (R128, R130). -/
theorem execPopq_next (rA : RegId) (s t : State) (h : execPopq rA s = .next t) :
    ∃ a v, regIndex rA = some a ∧ s.readQuad s.sp = some v ∧
      ((a = Config.spIndex ∧
          t = (s.setSp (popSpValue Config.popSpResult s.sp v)).setPc (s.valP .pop)) ∨
        (a ≠ Config.spIndex ∧
          t = ((s.setReg a v).setSp (popAddress s.sp)).setPc (s.valP .pop))) := by
  obtain ⟨a, ha, h⟩ := withReg_next _ _ _ h
  obtain ⟨v, hv, h⟩ := withQuad_next _ _ _ _ h
  split at h
  next he => exact ⟨a, v, ha, hv, .inl ⟨he, fallThrough_next _ _ _ h⟩⟩
  next he => exact ⟨a, v, ha, hv, .inr ⟨he, fallThrough_next _ _ _ h⟩⟩

/-! ### No refusal -/

theorem withReg_ne_refused (r : RegId) (k : Fin 15 → Outcome) (e : Refusal) (h : ∀ i, k i ≠ .refused e) :
    withReg r k ≠ .refused e := by
  unfold withReg
  split
  · exact h _
  · simp [raise]

theorem withQuad_ne_refused (s : State) (a : Word) (k : Word → Outcome) (e : Refusal) (h : ∀ v, k v ≠ .refused e) :
    withQuad s a k ≠ .refused e := by
  unfold withQuad
  split
  · exact h _
  · simp [raise]

theorem storingQuad_ne_refused (s : State) (a v : Word) (k : State → Outcome) (e : Refusal)
    (h : ∀ t, k t ≠ .refused e) : storingQuad s a v k ≠ .refused e := by
  unfold storingQuad
  split
  · exact h _
  · simp [raise]

theorem fallThrough_ne_refused (s : State) (c : OpClass) (e : Refusal) : fallThrough s c ≠ .refused e := by
  simp [fallThrough]

theorem conditionalMove_ne_refused (p : Predicate) (rA rB : RegId) (s : State) (e : Refusal) :
    conditionalMove p rA rB s ≠ .refused e := by
  unfold conditionalMove
  split
  · exact withReg_ne_refused _ _ _ fun _ => withReg_ne_refused _ _ _ fun _ => fallThrough_ne_refused _ _ _
  · simp [raise]

theorem arithmetic_ne_refused (op : AluOp) (rA rB : RegId) (s : State) (e : Refusal) :
    arithmetic op rA rB s ≠ .refused e := by
  unfold arithmetic
  refine withReg_ne_refused _ _ _ fun a => withReg_ne_refused _ _ _ fun b => ?_
  split
  · exact fallThrough_ne_refused _ _ _
  · simp [raise]

theorem conditionalJump_ne_refused (p : Predicate) (t : Word) (s : State) (e : Refusal) :
    conditionalJump p t s ≠ .refused e := by
  simp [conditionalJump_eq]

/-- No instruction is refused: every arm of `exec` is a meaning, and none of them refuses. -/
theorem exec_ne_refused (i : Instr) (s : State) (e : Refusal) : exec i s ≠ .refused e := by
  cases i
  case halt => simp [exec, execHalt]
  case nop => exact fallThrough_ne_refused _ _ _
  case rrmovq => exact conditionalMove_ne_refused .always _ _ _ _
  case cmovle => exact conditionalMove_ne_refused .le _ _ _ _
  case cmovl => exact conditionalMove_ne_refused .lt _ _ _ _
  case cmove => exact conditionalMove_ne_refused .eq _ _ _ _
  case cmovne => exact conditionalMove_ne_refused .ne _ _ _ _
  case cmovge => exact conditionalMove_ne_refused .ge _ _ _ _
  case cmovg => exact conditionalMove_ne_refused .gt _ _ _ _
  case irmovq => exact withReg_ne_refused _ _ _ fun _ => fallThrough_ne_refused _ _ _
  case rmmovq =>
    exact withReg_ne_refused _ _ _ fun _ => withReg_ne_refused _ _ _ fun _ =>
      storingQuad_ne_refused _ _ _ _ _ fun _ => fallThrough_ne_refused _ _ _
  case mrmovq =>
    exact withReg_ne_refused _ _ _ fun _ => withReg_ne_refused _ _ _ fun _ =>
      withQuad_ne_refused _ _ _ _ fun _ => fallThrough_ne_refused _ _ _
  case addq => exact arithmetic_ne_refused .add _ _ _ _
  case subq => exact arithmetic_ne_refused .sub _ _ _ _
  case andq => exact arithmetic_ne_refused .and _ _ _ _
  case xorq => exact arithmetic_ne_refused .xor _ _ _ _
  case mulq => exact arithmetic_ne_refused .mul _ _ _ _
  case divq => exact arithmetic_ne_refused .div _ _ _ _
  case modq => exact arithmetic_ne_refused .mod _ _ _ _
  case jmp => exact conditionalJump_ne_refused .always _ _ _
  case jle => exact conditionalJump_ne_refused .le _ _ _
  case jl => exact conditionalJump_ne_refused .lt _ _ _
  case je => exact conditionalJump_ne_refused .eq _ _ _
  case jne => exact conditionalJump_ne_refused .ne _ _ _
  case jge => exact conditionalJump_ne_refused .ge _ _ _
  case jg => exact conditionalJump_ne_refused .gt _ _ _
  case call => exact storingQuad_ne_refused _ _ _ _ _ fun _ => by simp
  case ret => exact withQuad_ne_refused _ _ _ _ fun _ => by simp
  case pushq =>
    exact withReg_ne_refused _ _ _ fun _ => storingQuad_ne_refused _ _ _ _ _ fun _ => fallThrough_ne_refused _ _ _
  case popq =>
    refine withReg_ne_refused _ _ _ fun _ => withQuad_ne_refused _ _ _ _ fun _ => ?_
    split <;> exact fallThrough_ne_refused _ _ _

/-! ### The step -/

/-- Executing a record answers a next state only where the record stands for an instruction, which then does. -/
theorem executeRecord_next (c : CachedInstr) (s t : State) (h : executeRecord c s = .next t) :
    c.invalid = false ∧ ∃ i, instrOfDecoded c.record c.status = .ok i ∧ exec i s = .next t := by
  unfold executeRecord at h
  cases hi : c.invalid with
  | true => simp [hi, raise] at h
  | false =>
    cases hd : instrOfDecoded c.record c.status with
    | error e => simp [hi, hd, raise] at h
    | ok i => exact ⟨rfl, i, rfl, by simpa [hi, hd] using h⟩

/-- A record that is not marked and stands for an instruction executes as that instruction. -/
theorem executeRecord_of_ok (c : CachedInstr) (s : State) (i : Instr) (hc : c.invalid = false)
    (h : instrOfDecoded c.record c.status = .ok i) : executeRecord c s = exec i s := by
  simp [executeRecord, hc, h]

/-- If the step answers a next state, then the bytes at the program counter decode to an instruction, it executes to a
next state, and the step adds the re-decode. -/
theorem step_next (s t : State) (h : step s = .next t) :
    ∃ i u, instrOfDecoded s.decodeHere.record s.decodeHere.status = .ok i ∧ exec i s = .next u ∧
      t = u.redecode := by
  unfold step stepHere at h
  split at h
  next u hu =>
    cases h
    obtain ⟨-, i, hi, he⟩ := executeRecord_next _ _ _ hu
    exact ⟨i, u, hi, he, rfl⟩
  next => cases h
  next => cases h

end Sys2Proof.Machine
end

