-- ==== Sys2Proof/Laws/PerInstr.lean ====
section
/-!
SUPPORT. One family of lemmas for each constructor of `Instr`.
-/

namespace Sys2Proof.Laws.EncodedLength

open Sys2Proof

/-- The encoding of an instruction begins with the opcode byte of a class and is as long as that class says (R63, R66). -/
def Statement (i : Instr) : Prop :=
  ∃ (c : OpClass) (f : Nibble) (rest : List Byte), encode i = (c.code ++ f) :: rest ∧ (encode i).length = c.length

theorem halt : Statement .halt := ⟨.halt, 0, _, rfl, rfl⟩
theorem nop : Statement .nop := ⟨.nop, 0, _, rfl, rfl⟩
theorem rrmovq (rA rB : RegId) : Statement (.rrmovq rA rB) := ⟨.cmov, 0, _, rfl, rfl⟩
theorem cmovle (rA rB : RegId) : Statement (.cmovle rA rB) := ⟨.cmov, 1, _, rfl, rfl⟩
theorem cmovl (rA rB : RegId) : Statement (.cmovl rA rB) := ⟨.cmov, 2, _, rfl, rfl⟩
theorem cmove (rA rB : RegId) : Statement (.cmove rA rB) := ⟨.cmov, 3, _, rfl, rfl⟩
theorem cmovne (rA rB : RegId) : Statement (.cmovne rA rB) := ⟨.cmov, 4, _, rfl, rfl⟩
theorem cmovge (rA rB : RegId) : Statement (.cmovge rA rB) := ⟨.cmov, 5, _, rfl, rfl⟩
theorem cmovg (rA rB : RegId) : Statement (.cmovg rA rB) := ⟨.cmov, 6, _, rfl, rfl⟩
theorem irmovq (rB : RegId) (v : Word) : Statement (.irmovq rB v) := ⟨.irmov, 0, _, rfl, rfl⟩
theorem rmmovq (rA rB : RegId) (d : Word) : Statement (.rmmovq rA rB d) := ⟨.rmmov, 0, _, rfl, rfl⟩
theorem mrmovq (rA rB : RegId) (d : Word) : Statement (.mrmovq rA rB d) := ⟨.mrmov, 0, _, rfl, rfl⟩
theorem addq (rA rB : RegId) : Statement (.addq rA rB) := ⟨.opq, 0, _, rfl, rfl⟩
theorem subq (rA rB : RegId) : Statement (.subq rA rB) := ⟨.opq, 1, _, rfl, rfl⟩
theorem andq (rA rB : RegId) : Statement (.andq rA rB) := ⟨.opq, 2, _, rfl, rfl⟩
theorem xorq (rA rB : RegId) : Statement (.xorq rA rB) := ⟨.opq, 3, _, rfl, rfl⟩
theorem mulq (rA rB : RegId) : Statement (.mulq rA rB) := ⟨.opq, 4, _, rfl, rfl⟩
theorem divq (rA rB : RegId) : Statement (.divq rA rB) := ⟨.opq, 5, _, rfl, rfl⟩
theorem modq (rA rB : RegId) : Statement (.modq rA rB) := ⟨.opq, 6, _, rfl, rfl⟩
theorem jmp (t : Word) : Statement (.jmp t) := ⟨.jump, 0, _, rfl, rfl⟩
theorem jle (t : Word) : Statement (.jle t) := ⟨.jump, 1, _, rfl, rfl⟩
theorem jl (t : Word) : Statement (.jl t) := ⟨.jump, 2, _, rfl, rfl⟩
theorem je (t : Word) : Statement (.je t) := ⟨.jump, 3, _, rfl, rfl⟩
theorem jne (t : Word) : Statement (.jne t) := ⟨.jump, 4, _, rfl, rfl⟩
theorem jge (t : Word) : Statement (.jge t) := ⟨.jump, 5, _, rfl, rfl⟩
theorem jg (t : Word) : Statement (.jg t) := ⟨.jump, 6, _, rfl, rfl⟩
theorem call (t : Word) : Statement (.call t) := ⟨.call, 0, _, rfl, rfl⟩
theorem ret : Statement .ret := ⟨.ret, 0, _, rfl, rfl⟩
theorem pushq (rA : RegId) : Statement (.pushq rA) := ⟨.push, 0, _, rfl, rfl⟩
theorem popq (rA : RegId) : Statement (.popq rA) := ⟨.pop, 0, _, rfl, rfl⟩

end Sys2Proof.Laws.EncodedLength
end

