-- ==== Sys2Proof/Tests/Slice0.lean ====
section
/-!
SUPPORT. Small tests, each about one step or one decode, with expected results from spec/95_test_vectors.md or, where
said, from a rule's own example; the refusals of `wellFormed`; and witnesses for the hypotheses of the statements.
-/

namespace Sys2Proof.Tests

open Sys2Proof Sys2Proof.Machine Sys2Proof.Safety

/-! ### Small states and what is looked at -/

/-- A session's state over an image of zeros but for the listed cells, with some registers and the flags set. -/
def st (size : Nat) (pc : Word) (cells : List Host.Cell) (regs : List (Fin 15 × Word)) (zf sf : Bool) : State :=
  (regs.foldl (fun s p => s.setReg p.1 p.2) (State.sessionStart ⟨size, cells⟩ pc)).setCc ⟨zf, sf⟩

/-- A list of bytes as cells from address 0 on, zeros left out. -/
def cellsAt : Nat → List Byte → List Host.Cell
  | _, [] => []
  | a, b :: bs => if b = 0 then cellsAt (a + 1) bs else (a, b) :: cellsAt (a + 1) bs

def regAfter (i : Fin 15) : Outcome → Option Word
  | .next t => some (t.reg i)
  | _ => none

def pcAfter : Outcome → Option Word
  | .next t => some t.pc
  | _ => none

def flagsAfter : Outcome → Option CC
  | .next t => some t.cc
  | _ => none

def quadAfter (a : Word) : Outcome → Option Word
  | .next t => t.readQuad a
  | _ => none

def failure : Outcome → Option Fault
  | .fault f => some f
  | _ => none

/-! ### `wellFormed` refuses -/

theorem test_wf_rrmovq_no_source : (Instr.rrmovq noReg rdx).wellFormed = false := by decide
theorem test_wf_cmovle_no_destination : (Instr.cmovle rcx noReg).wellFormed = false := by decide
theorem test_wf_cmovl : (Instr.cmovl noReg rdx).wellFormed = false := by decide
theorem test_wf_cmove : (Instr.cmove rcx noReg).wellFormed = false := by decide
theorem test_wf_cmovne : (Instr.cmovne noReg rdx).wellFormed = false := by decide
theorem test_wf_cmovge : (Instr.cmovge rcx noReg).wellFormed = false := by decide
theorem test_wf_cmovg : (Instr.cmovg noReg rdx).wellFormed = false := by decide
theorem test_wf_irmovq : (Instr.irmovq noReg 5).wellFormed = false := by decide
theorem test_wf_rmmovq_no_base : (Instr.rmmovq rax noReg 8).wellFormed = false := by decide
theorem test_wf_rmmovq_no_source : (Instr.rmmovq noReg rbx 8).wellFormed = false := by decide
theorem test_wf_mrmovq_no_base : (Instr.mrmovq rax noReg 8).wellFormed = false := by decide
theorem test_wf_addq : (Instr.addq noReg rdx).wellFormed = false := by decide
theorem test_wf_subq : (Instr.subq noReg noReg).wellFormed = false := by decide
theorem test_wf_andq : (Instr.andq rcx noReg).wellFormed = false := by decide
theorem test_wf_xorq : (Instr.xorq rcx noReg).wellFormed = false := by decide
theorem test_wf_mulq : (Instr.mulq noReg rdx).wellFormed = false := by decide
theorem test_wf_divq : (Instr.divq noReg rdx).wellFormed = false := by decide
theorem test_wf_modq : (Instr.modq rcx noReg).wellFormed = false := by decide
theorem test_wf_pushq : (Instr.pushq noReg).wellFormed = false := by decide
theorem test_wf_popq : (Instr.popq noReg).wellFormed = false := by decide
/-- R72: code 7 is in no legal set of class 2. -/
theorem test_wf_cmov_code : cmovCodeLegal 7 = false := by decide

/-! ### Decode: words written out from 95_test_vectors.md 2.2 and the opcode map R82 -/

theorem test_decode_halt : decode [0x00] = .ok .halt := by decide
theorem test_decode_nop : decode [0x10] = .ok .nop := by decide
theorem test_decode_rrmovq : decode [0x20, 0x12] = .ok (.rrmovq rcx rdx) := by decide
theorem test_decode_cmovle : decode [0x21, 0x12] = .ok (.cmovle rcx rdx) := by decide
theorem test_decode_cmovl : decode [0x22, 0x16] = .ok (.cmovl rcx rsi) := by decide
theorem test_decode_cmove : decode [0x23, 0x12] = .ok (.cmove rcx rdx) := by decide
theorem test_decode_cmovne : decode [0x24, 0x12] = .ok (.cmovne rcx rdx) := by decide
theorem test_decode_cmovge : decode [0x25, 0x12] = .ok (.cmovge rcx rdx) := by decide
theorem test_decode_cmovg : decode [0x26, 0x12] = .ok (.cmovg rcx rdx) := by decide
theorem test_decode_irmovq : decode [0x30, 0xF0, 5, 0, 0, 0, 0, 0, 0, 0] = .ok (.irmovq rax 5) := by decide
theorem test_decode_rmmovq : decode [0x40, 0x03, 8, 0, 0, 0, 0, 0, 0, 0] = .ok (.rmmovq rax rbx 8) := by decide
theorem test_decode_mrmovq :
    decode [0x50, 0x13, 0xF8, 0xFF, 0xFF, 0xFF, 0xFF, 0xFF, 0xFF, 0xFF] = .ok (.mrmovq rcx rbx 0xFFFFFFFFFFFFFFF8#64) := by
  decide
theorem test_decode_addq : decode [0x60, 0x12] = .ok (.addq rcx rdx) := by decide
theorem test_decode_subq : decode [0x61, 0x21] = .ok (.subq rdx rcx) := by decide
theorem test_decode_andq : decode [0x62, 0x12] = .ok (.andq rcx rdx) := by decide
theorem test_decode_xorq : decode [0x63, 0x77] = .ok (.xorq rdi rdi) := by decide
theorem test_decode_mulq : decode [0x64, 0x73] = .ok (.mulq rdi rbx) := by decide
theorem test_decode_divq : decode [0x65, 0x71] = .ok (.divq rdi rcx) := by decide
theorem test_decode_modq : decode [0x66, 0x12] = .ok (.modq rcx rdx) := by decide
theorem test_decode_jmp : decode [0x70, 0x00, 0x01, 0, 0, 0, 0, 0, 0] = .ok (.jmp 0x100) := by decide
theorem test_decode_jle : decode [0x71, 0x00, 0x01, 0, 0, 0, 0, 0, 0] = .ok (.jle 0x100) := by decide
theorem test_decode_jl : decode [0x72, 0x00, 0x01, 0, 0, 0, 0, 0, 0] = .ok (.jl 0x100) := by decide
theorem test_decode_je : decode [0x73, 0x00, 0x01, 0, 0, 0, 0, 0, 0] = .ok (.je 0x100) := by decide
theorem test_decode_jne : decode [0x74, 0x1E, 0, 0, 0, 0, 0, 0, 0] = .ok (.jne 0x1E) := by decide
theorem test_decode_jge : decode [0x75, 0x00, 0x01, 0, 0, 0, 0, 0, 0] = .ok (.jge 0x100) := by decide
theorem test_decode_jg : decode [0x76, 0x00, 0x01, 0, 0, 0, 0, 0, 0] = .ok (.jg 0x100) := by decide
theorem test_decode_call : decode [0x80, 0x40, 0, 0, 0, 0, 0, 0, 0] = .ok (.call 0x40) := by decide
theorem test_decode_ret : decode [0x90] = .ok .ret := by decide
theorem test_decode_pushq : decode [0xA0, 0x0F] = .ok (.pushq rax) := by decide
theorem test_decode_popq : decode [0xB0, 0x3F] = .ok (.popq rbx) := by decide

theorem test_decode_irmovq_rA_not_none : decode [0x30, 0x10, 5, 0, 0, 0, 0, 0, 0, 0] = .error .invalid := by decide
theorem test_decode_predicate_seven : decode [0x27, 0x12] = .error .invalid := by decide
theorem test_decode_operation_seven : decode [0x67, 0x12] = .error .invalid := by decide
theorem test_decode_halt_function : decode [0x0F] = .error .invalid := by decide
theorem test_decode_ret_function : decode [0x91] = .error .invalid := by decide
theorem test_decode_pushq_rB : decode [0xA0, 0x00] = .error .invalid := by decide
theorem test_decode_popq_wrong_nibble : decode [0xB0, 0xF3] = .error .invalid := by decide
theorem test_decode_no_class : decode [0xC0] = .error .invalid := by decide
theorem test_decode_truncated_and_illegal : decode [0x7F] = .error .tooShort := by decide
theorem test_decode_truncated_const : decode [0x50, 0x13, 8, 0, 0, 0, 0, 0, 0] = .error .tooShort := by decide
theorem test_decode_nothing : decode [] = .error .tooShort := by decide

/-- 95_test_vectors.md 2.2, the record of `30 F0 05 00 00`: the constant is cut off. -/
theorem test_record_cut_off : decodeRecord 0 [0x30, 0xF0, 5, 0, 0] =
    ({ icode := 3, ifun := 0, rA := 0xF, rB := 0, valC := 0, valP := 10, addr := 0 }, .tooShort) := by decide

/-- 95_test_vectors.md 2.2, `D5 12`: byte 1 is not read. -/
theorem test_record_no_class : decodeRecord 0 [0xD5, 0x12] =
    ({ icode := 0xD, ifun := 5, rA := 0xF, rB := 0xF, valC := 0, valP := 1, addr := 0 }, .invalid) := by decide

/-- R82 by the opcode table's numbering: the first byte is bits 7..0. -/
theorem test_table_word_pushq : decodeTableWord 16 0x0FA0 = some (.pushq rax) := by decide
theorem test_table_word_irmovq : decodeTableWord 16 0xF030 = some (.irmovq rax 0) := by decide

/-! ### Memory: 95_test_vectors.md 2.1 -/

def mem16 : Memory := ⟨16, []⟩

theorem test_readByte_last : mem16.readByte 15 = some 0 := by decide
theorem test_readByte_past : mem16.readByte 16 = none := by decide
theorem test_quad_overlap :
    ((mem16.writeQuad 8 0x1122334455667788#64).bind (·.readQuad 4)) = some 0x5566778800000000#64 := by decide
theorem test_quad_no_wrap : mem16.readQuad 0xFFFFFFFFFFFFFFF9#64 = none := by decide
theorem test_quad_write_past : mem16.writeQuad 9 1 = none := by decide
theorem test_write_zero_removes : (mem16.writeByte 3 7).bind (·.writeByte 3 0) = some mem16 := by decide

/-! ### Moves: 95_test_vectors.md 2.3 -/

theorem test_rrmovq : regAfter 3 (exec (.rrmovq rax rbx) (st 0x200 0 [] [(0, 7), (3, 1)] true false)) = some 7 := by decide
theorem test_rrmovq_pc : pcAfter (exec (.rrmovq rax rbx) (st 0x200 0x40 [] [(0, 7)] false false)) = some 0x42 := by decide
theorem test_cmovle_taken : regAfter 2 (exec (.cmovle rcx rdx) (st 0x200 0 [] [(1, 9), (2, 4)] false true)) = some 9 := by decide
theorem test_cmovle_not : regAfter 2 (exec (.cmovle rcx rdx) (st 0x200 0 [] [(1, 9), (2, 4)] false false)) = some 4 := by decide
theorem test_cmovl_not : regAfter 2 (exec (.cmovl rcx rdx) (st 0x200 0 [] [(1, 9), (2, 4)] true false)) = some 4 := by decide
theorem test_cmove_taken : regAfter 2 (exec (.cmove rcx rdx) (st 0x200 0 [] [(1, 9), (2, 4)] true false)) = some 9 := by decide
theorem test_cmovne_taken : regAfter 2 (exec (.cmovne rcx rdx) (st 0x200 0 [] [(1, 9), (2, 4)] false false)) = some 9 := by decide
theorem test_cmovne_not : regAfter 2 (exec (.cmovne rcx rdx) (st 0x200 0 [] [(1, 9), (2, 4)] true false)) = some 4 := by decide
theorem test_cmovge_not : regAfter 2 (exec (.cmovge rcx rdx) (st 0x200 0 [] [(1, 9), (2, 4)] false true)) = some 4 := by decide
theorem test_cmovge_taken : regAfter 2 (exec (.cmovge rcx rdx) (st 0x200 0 [] [(1, 9), (2, 4)] true false)) = some 9 := by decide
theorem test_cmovg_taken : regAfter 2 (exec (.cmovg rcx rdx) (st 0x200 0 [] [(1, 9), (2, 4)] false false)) = some 9 := by decide
theorem test_cmovg_not : regAfter 2 (exec (.cmovg rcx rdx) (st 0x200 0 [] [(1, 9), (2, 4)] false true)) = some 4 := by decide
theorem test_irmovq : regAfter 5 (exec (.irmovq rbp minusOne) (st 0x200 0 [] [] false false)) = some minusOne := by decide
theorem test_irmovq_pc : pcAfter (exec (.irmovq rax 5) (st 0x200 0 [] [] false false)) = some 10 := by decide

def storeState (base : Word) : State := st 0x200 0 [] [(0, 0x1122334455667788#64), (3, base)] false false

theorem test_rmmovq : quadAfter 0x10C (exec (.rmmovq rax rbx 8) (storeState 0x100)) = some 0x11223344 := by decide
theorem test_rmmovq_past : failure (exec (.rmmovq rax rbx 8) (storeState 0x1F9)) = some .memWriteOob := by decide
theorem test_mrmovq_same_register :
    regAfter 3 (exec (.mrmovq rbx rbx 8) (st 0x200 0 [(0x108, 0x88), (0x10F, 0x11)] [(3, 0x100)] false false)) =
      some 0x1100000000000088#64 := by decide
theorem test_mrmovq_past : failure (exec (.mrmovq rcx rbx 0x100) (storeState 0x100)) = some .memReadOob := by decide

/-! ### Arithmetic: 95_test_vectors.md 2.5, `a` in %rcx and `b` in %rdx -/

def ab (a b : Word) : State := st 0x200 0 [] [(1, a), (2, b)] false false

theorem test_addq_wraps : regAfter 2 (exec (.addq rcx rdx) (ab 3 0xFFFFFFFFFFFFFFFD#64)) = some 0 := by decide
theorem test_addq_sign : flagsAfter (exec (.addq rcx rdx) (ab 1 0x7FFFFFFFFFFFFFFF#64)) = some ⟨false, true⟩ := by decide
theorem test_subq_order : regAfter 2 (exec (.subq rcx rdx) (ab 7 5)) = some 0xFFFFFFFFFFFFFFFE#64 := by decide
theorem test_subq_overflow : flagsAfter (exec (.subq rcx rdx) (ab 1 int64Min)) = some ⟨false, false⟩ := by decide
theorem test_andq : flagsAfter (exec (.andq rcx rdx) (ab 0x0F 0xF0)) = some ⟨true, false⟩ := by decide
theorem test_xorq : regAfter 2 (exec (.xorq rcx rdx) (ab 0xFF int64Min)) = some 0x80000000000000FF#64 := by decide
theorem test_xorq_self : flagsAfter (exec (.xorq rdx rdx) (ab 0 5)) = some ⟨true, false⟩ := by decide
theorem test_mulq_wraps : flagsAfter (exec (.mulq rcx rdx) (ab 0x100000000 0x100000000)) = some ⟨true, false⟩ := by decide
theorem test_mulq_negative : regAfter 2 (exec (.mulq rcx rdx) (ab 4 0xFFFFFFFFFFFFFFFD#64)) = some 0xFFFFFFFFFFFFFFF4#64 := by decide
theorem test_divq_truncates : regAfter 2 (exec (.divq rcx rdx) (ab 2 (-7))) = some (-3) := by decide
theorem test_divq_zero : failure (exec (.divq rcx rdx) (ab 0 5)) = some .divZero := by decide
theorem test_modq_sign : regAfter 2 (exec (.modq rcx rdx) (ab (-2) 7)) = some 1 := by decide
theorem test_modq_overflow : failure (exec (.modq rcx rdx) (ab minusOne int64Min)) = some .divOverflow := by decide

/-! ### Control: 95_test_vectors.md 2.6 -/

def at20 (sp : Word) (zf sf : Bool) : State := st 0x400 0x20 [(0x1F8, 0x29)] [(4, sp)] zf sf

theorem test_jmp : pcAfter (exec (.jmp 0x100) (at20 0 false false)) = some 0x100 := by decide
theorem test_jle_not : pcAfter (exec (.jle 0x100) (at20 0 false false)) = some 0x29 := by decide
theorem test_jl_taken : pcAfter (exec (.jl 0x100) (at20 0 false true)) = some 0x100 := by decide
theorem test_je_not : pcAfter (exec (.je 0x100) (at20 0 false true)) = some 0x29 := by decide
theorem test_jne_taken : pcAfter (exec (.jne 0x100) (at20 0 false false)) = some 0x100 := by decide
theorem test_jge_taken : pcAfter (exec (.jge 0x100) (at20 0 true false)) = some 0x100 := by decide
theorem test_jg_not : pcAfter (exec (.jg 0x100) (at20 0 true false)) = some 0x29 := by decide
theorem test_call_slot : quadAfter 0x1F8 (exec (.call 0x40) (at20 0x200 false false)) = some 0x29 := by decide
theorem test_call_past : failure (exec (.call 0x40) (at20 0x401 false false)) = some .memWriteOob := by decide
theorem test_ret_pc : pcAfter (exec .ret (at20 0x1F8 false false)) = some 0x29 := by decide
theorem test_ret_past : failure (exec .ret (at20 0x3F9 false false)) = some .memReadOob := by decide

/-! ### Stack: 95_test_vectors.md 2.7 -/

def stack (sp : Word) : State := st 0x100 0 [(0xF8, 0x40)] [(0, 0xAB), (4, sp)] false false

theorem test_pushq_sp_old_value : quadAfter 0xF8 (exec (.pushq rsp) (stack 0x100)) = some 0x100 := by decide
theorem test_pushq_wraps : failure (exec (.pushq rax) (stack 0)) = some .memWriteOob := by decide
theorem test_popq : regAfter 3 (exec (.popq rbx) (stack 0xF8)) = some 0x40 := by decide
theorem test_popq_sp : regAfter 4 (exec (.popq rbx) (stack 0xF8)) = some 0x100 := by decide
theorem test_popq_rsp_values :
    popSpValue .mem 0xF8 0x40 = 0x40 ∧ popSpValue .memPlus8 0xF8 0x40 = 0x48 ∧
      popSpValue .oldPlus8 0xF8 0x40 = 0x100 := by decide

/-! ### Halt, no-op and undecodable records: 95_test_vectors.md 2.8 -/

theorem test_halt_pc : pcAfter (step (st 16 10 [] [] false false)) = some 10 := by decide
theorem test_nop_pc : pcAfter (step (st 16 5 [(5, 0x10)] [] false false)) = some 6 := by decide
theorem test_step_invalid : failure (step (st 16 0 [(0, 0x0F)] [] false false)) = some .notExecutable := by decide
theorem test_step_too_short : failure (step (st 5 4 [(4, 0x30)] [] false false)) = some .notExecutable := by decide
/-- S1: the source's worked example, as the first step of a session. -/
theorem test_step_s1 :
    regAfter 0 (step (st 11 0 [(0, 0x30), (1, 0xF0), (2, 5)] [] false false)) = some 5 := by decide
/-- The same word placed where the first step after reset fetches. -/
theorem test_withFetchWord : pcAfter (step (State.reset.withFetchWord 16 0xF030)) = some 10 := by decide

/-! ### Host: 95_test_vectors.md 2.9 -/

def nops : State := st 3 0 [(0, 0x10), (1, 0x10)] [] false false

theorem test_run_halts : (runFor 5 nops).2 = some .halt ∧ (runFor 5 nops).1.pc = 2 := by decide
theorem test_run_breaks :
    (runFor 5 (commandBreak 1 nops).1).2 = some .breakpoint ∧ (runFor 5 (commandBreak 1 nops).1).1.pc = 1 := by decide
theorem test_step_failure :
    (commandStep (st 3 0 [(0, 0x65), (1, 0x71)] [] false false)).2 = .stepped (some .divZero) := by decide
theorem test_step_failure_redecodes :
    (commandStep (st 3 0 [(0, 0x65), (1, 0x71)] [] false false)).1.host.ci.status = .validContinue := by decide
/-- S7: NEXT over a call that never returns stops at the halt. -/
theorem test_next_stops_at_halt :
    (commandNext 5 (st 0x100 0 [(0, 0x80), (1, 9)] [(4, 0x100)] false false)).2 = .stopped .halt := by decide
/-- R171, R176. -/
theorem test_boot_out_of_range : boot (.image mem16 (some 16)) = .error .startOutOfRange := by decide
theorem test_boot_empty : boot (.image ⟨0, []⟩ none) = .error .emptyImage := by decide

/-! ### Witnesses: for each statement with hypotheses, a state and operands that meet them all, each clause at a boundary -/

theorem witness_EveryWellFormedInstructionDecodesFromItsEncoding : (Instr.cmovg r14 rax).wellFormed = true := by decide

theorem witness_DecodingYieldsOnlyWellFormedInstructionsFromTheirOwnEncoding :
    decode [0x26, 0xE0, 0xFF] = .ok (.cmovg r14 rax) := by decide

theorem witness_DecodedRecordHoldsAddressesAndStatus :
    Instr.halt.wellFormed = true ∧ (Instr.popq r14).wellFormed = true := by decide

/-- One byte too few for irmovq, and exactly enough. -/
theorem witness_KnownClassIsTooShortExactlyWhenTheImageEnds :
    ((st 13 4 [(4, 0x30)] [] false false).mem.readByte 4 = some 0x30 ∧
      (st 14 4 [(4, 0x30)] [] false false).mem.readByte 4 = some 0x30) ∧
    OpClass.ofCode (highNibble 0x30) = some .irmov ∧ (13 < 4 + OpClass.irmov.length ∧ ¬ 14 < 4 + OpClass.irmov.length) := by
  decide

theorem witness_CounterOutsideTheImageDecodesTooShort :
    (st 16 16 [] [] false false).mem.size ≤ (st 16 16 [] [] false false).pc.toNat := by decide

theorem witness_UnknownClassIsInvalidAfterOneByte : 0xC ≤ (0xC0 : Byte).toNat / 16 := by decide

/-- Two states that differ in a register, a flag and the byte ten above the program counter. -/
theorem witness_DecodeDependsOnlyOnTheBytesAtTheCounter :
    let s := st 32 4 [(4, 0x10)] [] false false
    let t := st 32 4 [(4, 0x10), (14, 1)] [(0, 1)] true false
    t.pc = s.pc ∧ t.mem.size = s.mem.size ∧
      ∀ n, s.pc.toNat ≤ n → n ≤ s.pc.toNat + 9 → t.mem.get n = s.mem.get n := by
  refine ⟨rfl, rfl, fun n h1 h2 => ?_⟩
  change 4 ≤ n at h1
  change n ≤ 13 at h2
  interval_cases n <;> rfl

/-- The first offset outside an image of 16 bytes, and the last one inside. -/
theorem witness_SessionStartsAtTheSuppliedOffsetOrNotAtAll :
    mem16.size ≤ ((some 16 : Option Word).getD 0).toNat ∧ ((some 15 : Option Word).getD 0).toNat < mem16.size ∧
      ((none : Option Word).getD 0).toNat < mem16.size := by
  decide

theorem witness_StepRunsTheDecodedInstruction :
    (decode (nops.mem.fetchBytes nops.pc) = .ok .nop ∧ ∃ t, exec .nop nops = .next t) ∧
    decode ((st 1 0 [(0, 0x90)] [] false false).mem.fetchBytes 0) = .ok .ret ∧
      exec .ret (st 1 0 [(0, 0x90)] [] false false) = .fault .memReadOob :=
  ⟨⟨by decide, _, rfl⟩, by decide, rfl⟩

theorem witness_UndecodableRecordsFailToExecute :
    (cacheAt ⟨1, [(0, 0x0F)]⟩ 0).status = .invalid ∧ (cacheAt ⟨1, [(0, 0x30)]⟩ 0).status = .tooShort ∧
      decode (Memory.fetchBytes ⟨1, [(0, 0x30)]⟩ 0) = .error .tooShort := by
  decide

theorem witness_IllFormedInstructionsFail : (Instr.popq noReg).wellFormed = false := by decide

theorem witness_ConditionalMovesCopyWhenTheirPredicateHolds : rax ≠ noReg ∧ r14 ≠ noReg := by decide

theorem witness_IrmovqLoadsItsConstantWhole : r14 ≠ noReg := by decide

/-- The last quad of the image, and the first that runs past it. -/
theorem witness_RmmovqStoresAQuadAtBasePlusDisplacement :
    (storeState 0x1F0).readReg rax = some 0x1122334455667788#64 ∧ (storeState 0x1F0).readReg rbx = some 0x1F0 ∧
      (effectiveAddress 0x1F0 8).toNat + 7 < (storeState 0x1F0).mem.size ∧
      (storeState 0x1F0).mem.size ≤ (effectiveAddress 0x1F0 9).toNat + 7 := by
  decide

theorem witness_MrmovqLoadsTheQuadAtBasePlusDisplacement :
    r14 ≠ noReg ∧ (storeState 0x1F0).readReg rbx = some 0x1F0 ∧
      (effectiveAddress 0x1F0 8).toNat + 7 < (storeState 0x1F0).mem.size ∧
      (storeState 0x1F0).mem.size ≤ (effectiveAddress 0x1F0 9).toNat + 7 := by
  decide

theorem witness_ArithmeticLeavesResultAndFlags :
    (ab 1 int64Min).readReg rcx = some 1 ∧ (ab 1 int64Min).readReg rdx = some int64Min := by decide

/-- The zero divisor, the overflow pair, and the pairs next to it. -/
theorem witness_DivqLeavesTheTruncatedQuotient :
    ((ab 0 5).readReg rcx = some 0 ∧ (ab 0 5).readReg rdx = some 5) ∧
    ((ab minusOne int64Min).readReg rcx = some minusOne ∧ (ab minusOne int64Min).readReg rdx = some int64Min) ∧
    ((ab 1 int64Min).readReg rcx = some 1 ∧ (1 : Word) ≠ 0 ∧ ¬(int64Min = int64Min ∧ (1 : Word) = minusOne)) := by
  decide

theorem witness_ModqLeavesTheRemainderOfTheTruncatedQuotient :
    ((ab 0 5).readReg rcx = some 0 ∧ (ab 0 5).readReg rdx = some 5) ∧
    ((ab minusOne int64Min).readReg rcx = some minusOne ∧ (ab minusOne int64Min).readReg rdx = some int64Min) ∧
    ((ab minusOne 5).readReg rdx = some 5 ∧ minusOne ≠ 0 ∧ ¬((5 : Word) = int64Min ∧ minusOne = minusOne)) := by
  decide

/-- The slot that is the image's last quad, and a stack pointer one above. -/
theorem witness_CallPushesTheFallThroughAddress :
    (pushAddress (stack 0x100)).toNat + 7 < (stack 0x100).mem.size ∧
      (stack 0x101).mem.size ≤ (pushAddress (stack 0x101)).toNat + 7 := by
  decide

theorem witness_RetPopsTheProgramCounter :
    ((stack 0xF8).readReg spReg = some 0xF8 ∧ (0xF8 : Word).toNat + 7 < (stack 0xF8).mem.size) ∧
      (stack 0xF9).readReg spReg = some 0xF9 ∧ (stack 0xF9).mem.size ≤ (0xF9 : Word).toNat + 7 := by
  decide

theorem witness_PushqStoresTheRegisterBelowTheStackPointer :
    ((stack 0x100).readReg rsp = some 0x100 ∧ (pushAddress (stack 0x100)).toNat + 7 < (stack 0x100).mem.size) ∧
      (stack 0x101).readReg rax = some 0xAB ∧ (stack 0x101).mem.size ≤ (pushAddress (stack 0x101)).toNat + 7 := by
  decide

theorem witness_PopqLoadsTheQuadAtTheStackPointer :
    (r14 ≠ noReg ∧ (stack 0xF8).readReg spReg = some 0xF8 ∧
      ((0xF8 : Word).toNat + 7 < (stack 0xF8).mem.size ∧ r14 ≠ spReg)) ∧
      rsp ≠ noReg ∧ (stack 0xF9).readReg spReg = some 0xF9 ∧ (stack 0xF9).mem.size ≤ (0xF9 : Word).toNat + 7 := by
  decide

theorem witness_PopqOfTheStackPointerLeavesOneOfThreeValues :
    ((stack 0xF8).readReg spReg = some 0xF8 ∧ (0xF8 : Word).toNat + 7 < (stack 0xF8).mem.size) ∧
      (stack 0xF9).readReg spReg = some 0xF9 ∧ (stack 0xF9).mem.size ≤ (0xF9 : Word).toNat + 7 := by
  decide

theorem witness_ReturnAfterCallComesBack : ∃ t, exec (.call 0x40) (at20 0x200 false false) = .next t := ⟨_, rfl⟩

theorem witness_PopAfterPushGivesThePushedValue :
    (∃ t, exec (.pushq rsp) (stack 0x100) = .next t) ∧ rbx ≠ noReg ∧ rbx ≠ spReg :=
  ⟨⟨_, rfl⟩, by decide, by decide⟩

theorem witness_StackPointerBelowEightCannotPush :
    (stack 7).mem.size < 2 ^ 64 ∧ (stack 7).sp.toNat < 8 ∧ r14 ≠ noReg ∧ State.reset.mem.size < 2 ^ 64 ∧
      State.reset.sp.toNat < 8 := by
  decide

/-- The clauses of the decode of class 0, and a halted state of a session. -/
theorem witness_HaltChangesNothing :
    (0x0F : Byte).toNat / 16 = 0 ∧ Halted (st 16 10 [] [] false false) ∧ CacheCoherent (st 16 10 [] [] false false) :=
  ⟨by decide, rfl, rfl⟩

theorem witness_NopOnlyAdvancesTheCounter : (0x10 : Byte).toNat / 16 = 1 ∧ (0x1F : Byte).toNat / 16 = 1 := by decide

theorem witness_ByteOperationsTouchOneByteInsideTheImage :
    mem16.size ≤ (16 : Word).toNat ∧ (15 : Word).toNat < mem16.size := by decide

theorem witness_QuadOperationsAreLittleEndianAndAllOrNothing :
    mem16.size ≤ (9 : Word).toNat + 7 ∧ (8 : Word).toNat + 7 < mem16.size := by decide

theorem witness_OverlappingQuadReadSeesTheWrittenBytes :
    ∃ m w, mem16.writeQuad 4 0x1122334455667788#64 = some m ∧ m.readQuad 8 = some w ∧
      (8 : Word).toNat = (4 : Word).toNat + 4 :=
  ⟨_, _, rfl, rfl, rfl⟩

theorem witness_StoreIsSeenByTheNextDecode :
    (storeState 2).readReg rax = some 0x1122334455667788#64 ∧ (storeState 2).readReg rbx = some 2 ∧
      effectiveAddress 2 8 = (storeState 2).pc + 10 ∧ ∃ t, exec (.rmmovq rax rbx 8) (storeState 2) = .next t :=
  ⟨by decide, by decide, by decide, _, rfl⟩

theorem inv_nops : Inv nops := ⟨by decide, by decide, by decide, rfl⟩

theorem witness_SessionsStartInTheInvariant : mem16.wf ∧ ∃ s, boot (.image mem16 (some 15)) = .ok s :=
  ⟨by decide, _, rfl⟩

theorem witness_EveryStepKeepsTheInvariant : Inv nops ∧ ∃ t, step nops = .next t := ⟨inv_nops, _, rfl⟩

theorem witness_EveryHostInputKeepsTheInvariant : Inv nops := inv_nops

theorem witness_FlagsChangeOnlyInArithmetic :
    ∃ t, exec (.xorq rdx rdx) (ab 0 5) = .next t ∧ t.cc ≠ (ab 0 5).cc := ⟨_, rfl, by decide⟩

theorem witness_MemoryChangesOnlyInStoreCallAndPush :
    ∃ t, exec (.pushq rax) (stack 0x100) = .next t ∧ ¬ MemorySame (stack 0x100) t :=
  ⟨_, rfl, fun h => absurd (h 0xF8) (by decide)⟩

theorem witness_NoInstructionTouchesTheHostOrTheImageLength :
    ∃ t, exec (.popq rbx) (stack 0xF8) = .next t := ⟨_, rfl⟩

theorem witness_FailuresComeOnlyFromTheirInstructions :
    (Instr.ret.wellFormed = true ∧ exec .ret (stack 0xF9) = .fault .memReadOob) ∧
    ((Instr.pushq rax).wellFormed = true ∧ exec (.pushq rax) (stack 0) = .fault .memWriteOob) ∧
    (Instr.divq rcx rdx).wellFormed = true ∧ exec (.divq rcx rdx) (ab 0 5) = .fault .divZero :=
  ⟨⟨by decide, rfl⟩, ⟨by decide, rfl⟩, by decide, rfl⟩

theorem witness_FailedExecutionLeavesTheMachineState :
    (executeCached (st 3 0 [(0, 0x65), (1, 0x71)] [] false false)).2 = some .divZero := by decide

theorem witness_HostStepIsTheMachinesStep :
    (CacheCoherent nops ∧ ∃ t, step nops = .next t) ∧
    CacheCoherent (st 3 0 [(0, 0x65), (1, 0x71)] [] false false) ∧
      step (st 3 0 [(0, 0x65), (1, 0x71)] [] false false) = .fault .divZero :=
  ⟨⟨rfl, _, rfl⟩, rfl, rfl⟩

theorem witness_RunIsTheRepeatedStep :
    CacheCoherent nops ∧ (∃ t, runFor 2 nops = (t, some .halt)) ∧
      (∃ t, runFor 1 (commandBreak 1 nops).1 = (t, some .breakpoint)) ∧
      ∃ t, runFor 1 (st 3 0 [(0, 0x65), (1, 0x71)] [] false false) = (t, some (.failed .divZero)) :=
  ⟨rfl, ⟨_, rfl⟩, ⟨_, rfl⟩, _, rfl⟩

theorem witness_RunAtAJumpToItselfNeverStops :
    let s := st 9 0 [(0, 0x70)] [] false false
    CacheCoherent s ∧ decode (s.mem.fetchBytes s.pc) = .ok (.jmp s.pc) ∧ s.pc ∉ s.host.bp :=
  ⟨rfl, by decide, by decide⟩

/-- A call of the return right after it: NEXT stops with RETURNED. -/
theorem witness_NextReturnsWithTheStackPointerOfTheCall :
    let s := st 0x100 0 [(0, 0x80), (1, 9), (9, 0x90)] [(4, 0x100)] false false
    cachedCall s = true ∧ (∃ t, commandNext 2 s = (t, .stopped .returned)) ∧ cachedCall nops = false :=
  ⟨by decide, ⟨_, rfl⟩, by decide⟩

theorem witness_JumpCommandSetsTheCounterAndDecodes : ∃ t r, commandJump 2 nops = (t, r) := ⟨_, _, rfl⟩

theorem witness_OnlyExecutionAndJumpTouchTheMachine :
    Input.command .quit ≠ .emptyLine ∧ Input.command .quit ≠ .command .step ∧ Input.command .quit ≠ .command .run ∧
      Input.command .quit ≠ .command .next ∧ ∀ a, Input.command .quit ≠ .command (.jump a) :=
  ⟨by decide, by decide, by decide, by decide, fun a h => by cases h⟩

theorem witness_ExamineReadsAQuadAndChangesNothing :
    (st 16 0 [] [] false false).mem.size ≤ (9 : Word).toNat + 7 ∧
      (8 : Word).toNat + 7 < (st 16 0 [] [] false false).mem.size := by
  decide

theorem witness_BreakAndDeleteChangeOneAddress : (0x10 : Word) ∉ nops.host.bp := by decide

theorem witness_EmptyLineRepeatsThePreviousCommand :
    nops.host.ended = false ∧ ∃ t r, hostInput 1 (.command .step) nops = (t, r) := ⟨rfl, _, _, rfl⟩

end Sys2Proof.Tests
end

section
/-!
PROOF. The step as a function of what the bytes at the program counter decode to (R3, R34).
-/

namespace Sys2Proof.Machine

open Sys2Proof

/-- The record decoded at the program counter stands for the instruction that the bytes there decode to: the record's
own addresses play no part (R60, R73). -/
theorem instrOfDecoded_decodeHere (s : State) :
    instrOfDecoded s.decodeHere.record s.decodeHere.status = decode (s.mem.fetchBytes s.pc) :=
  instrOfDecoded_decodeRecord s.pc (s.mem.fetchBytes s.pc)

theorem executeRecord_decodeHere_of_decode (s : State) (i : Instr) (h : decode (s.mem.fetchBytes s.pc) = .ok i) :
    executeRecord s.decodeHere s = exec i s :=
  executeRecord_of_ok s.decodeHere s i rfl ((instrOfDecoded_decodeHere s).trans h)

theorem step_of_executeRecord_next (s t : State) (h : executeRecord s.decodeHere s = .next t) :
    step s = .next t.redecode := by
  simp only [step, stepHere, h]

theorem step_of_executeRecord_fault (s : State) (f : Fault) (h : executeRecord s.decodeHere s = .fault f) :
    step s = .fault f := by
  simp only [step, stepHere, h]

/-- Settles O11: the step executes the record decoded at the program counter, and that record stands for `i`. -/
theorem stepRunsTheDecodedInstruction : Obligations.StepRunsTheDecodedInstruction := by
  intro s i hdecode
  have hrun : executeRecord s.decodeHere s = exec i s := executeRecord_decodeHere_of_decode s i hdecode
  constructor
  · intro t hnext
    exact step_of_executeRecord_next s t (hrun.trans hnext)
  · intro f hfault
    exact step_of_executeRecord_fault s f (hrun.trans hfault)

end Sys2Proof.Machine
end

section
/-!
PROOF. Everything an instruction can do when it answers a next state, one case for each family, and what follows for the
flags, the image, the registers and the host (R24, R27, R31, R35).
-/

namespace Sys2Proof.Machine

open Sys2Proof Sys2Proof.Safety

/-- The stack pointer's identifier names the stack pointer's register (R23). -/
theorem regIndex_spReg : regIndex spReg = some Config.spIndex := rfl

/-! ### The cases of `exec` -/

/-- How each family of instructions leads from `s` to its next state. The state after an instruction is spelled as the
updates that its meaning makes, and every premise under which the meaning goes on is kept. -/
inductive ExecEffect (s : State) : Instr → State → Prop where
  | halt : ExecEffect s .halt s
  | nop : ExecEffect s .nop (s.setPc (s.valP .nop))
  | moveTaken (p : Predicate) {rA rB : RegId} {a b : Fin 15} (ha : regIndex rA = some a) (hb : regIndex rB = some b)
      (hc : cond p s.cc = true) : ExecEffect s (p.move rA rB) ((s.setReg b (s.reg a)).setPc (s.valP .cmov))
  | moveNotTaken (p : Predicate) {rA rB : RegId} {a b : Fin 15} (ha : regIndex rA = some a)
      (hb : regIndex rB = some b) (hc : cond p s.cc = false) :
      ExecEffect s (p.move rA rB) (s.setPc (s.valP .cmov))
  | irmovq {rB : RegId} {b : Fin 15} (v : Word) (hb : regIndex rB = some b) :
      ExecEffect s (.irmovq rB v) ((s.setReg b v).setPc (s.valP .irmov))
  | rmmovq {rA rB : RegId} {d : Word} {a b : Fin 15} {m : Memory} (ha : regIndex rA = some a)
      (hb : regIndex rB = some b) (hm : s.mem.writeQuad (effectiveAddress (s.reg b) d) (s.reg a) = some m) :
      ExecEffect s (.rmmovq rA rB d) ((s.setMem m).setPc (s.valP .rmmov))
  | mrmovq {rA rB : RegId} {d v : Word} {a b : Fin 15} (ha : regIndex rA = some a) (hb : regIndex rB = some b)
      (hv : s.readQuad (effectiveAddress (s.reg b) d) = some v) :
      ExecEffect s (.mrmovq rA rB d) ((s.setReg a v).setPc (s.valP .mrmov))
  | arithmetic (op : AluOp) {rA rB : RegId} {a b : Fin 15} {r : Word} (ha : regIndex rA = some a)
      (hb : regIndex rB = some b) (hr : aluResult op (s.reg b) (s.reg a) = .ok r) :
      ExecEffect s (op.instr rA rB) (((s.setReg b r).setCc (flags r)).setPc (s.valP .opq))
  | jump (p : Predicate) (c : Word) :
      ExecEffect s (p.jump c) (s.setPc (if cond p s.cc then c else s.valP .jump))
  | call {c : Word} {m : Memory} (hm : s.mem.writeQuad (pushAddress s) (s.valP .call) = some m) :
      ExecEffect s (.call c) (((s.setMem m).setSp (pushAddress s)).setPc c)
  | ret {v : Word} (hv : s.readQuad s.sp = some v) :
      ExecEffect s .ret ((s.setSp (popAddress s.sp)).setPc v)
  | pushq {rA : RegId} {a : Fin 15} {m : Memory} (ha : regIndex rA = some a)
      (hm : s.mem.writeQuad (pushAddress s) (s.reg a) = some m) :
      ExecEffect s (.pushq rA) (((s.setMem m).setSp (pushAddress s)).setPc (s.valP .push))
  | popqSp {rA : RegId} {v : Word} (ha : regIndex rA = some Config.spIndex) (hv : s.readQuad s.sp = some v) :
      ExecEffect s (.popq rA) ((s.setSp (popSpValue Config.popSpResult s.sp v)).setPc (s.valP .pop))
  | popqOther {rA : RegId} {a : Fin 15} {v : Word} (ha : regIndex rA = some a) (hne : a ≠ Config.spIndex)
      (hv : s.readQuad s.sp = some v) :
      ExecEffect s (.popq rA) (((s.setReg a v).setSp (popAddress s.sp)).setPc (s.valP .pop))

section

variable {s t : State}

theorem conditionalMove_effect (p : Predicate) {rA rB : RegId} (h : conditionalMove p rA rB s = .next t) :
    ExecEffect s (p.move rA rB) t := by
  obtain ⟨a, b, ha, hb, rfl⟩ := conditionalMove_next p rA rB s t h
  split
  next hc => exact .moveTaken p ha hb hc
  next hc => exact .moveNotTaken p ha hb (Bool.not_eq_true _ ▸ hc)

theorem arithmetic_effect (op : AluOp) {rA rB : RegId} (h : arithmetic op rA rB s = .next t) :
    ExecEffect s (op.instr rA rB) t := by
  obtain ⟨a, b, r, ha, hb, hr, rfl⟩ := arithmetic_next op rA rB s t h
  exact .arithmetic op ha hb hr

theorem conditionalJump_effect (p : Predicate) {c : Word} (h : conditionalJump p c s = .next t) :
    ExecEffect s (p.jump c) t := by
  rw [conditionalJump_eq] at h
  cases h
  exact .jump p c

/-- An instruction that answers a next state does what its family does. -/
theorem exec_effect {i : Instr} (h : exec i s = .next t) : ExecEffect s i t := by
  cases i with
  | halt => cases h; exact .halt
  | nop => cases h; exact .nop
  | rrmovq => exact conditionalMove_effect .always h
  | cmovle => exact conditionalMove_effect .le h
  | cmovl => exact conditionalMove_effect .lt h
  | cmove => exact conditionalMove_effect .eq h
  | cmovne => exact conditionalMove_effect .ne h
  | cmovge => exact conditionalMove_effect .ge h
  | cmovg => exact conditionalMove_effect .gt h
  | irmovq rB v =>
    obtain ⟨b, hb, rfl⟩ := execIrmovq_next rB v s t h
    exact .irmovq v hb
  | rmmovq rA rB d =>
    obtain ⟨a, b, m, ha, hb, hm, rfl⟩ := execRmmovq_next rA rB d s t h
    exact .rmmovq ha hb hm
  | mrmovq rA rB d =>
    obtain ⟨a, b, v, ha, hb, hv, rfl⟩ := execMrmovq_next rA rB d s t h
    exact .mrmovq ha hb hv
  | addq => exact arithmetic_effect .add h
  | subq => exact arithmetic_effect .sub h
  | andq => exact arithmetic_effect .and h
  | xorq => exact arithmetic_effect .xor h
  | mulq => exact arithmetic_effect .mul h
  | divq => exact arithmetic_effect .div h
  | modq => exact arithmetic_effect .mod h
  | jmp => exact conditionalJump_effect .always h
  | jle => exact conditionalJump_effect .le h
  | jl => exact conditionalJump_effect .lt h
  | je => exact conditionalJump_effect .eq h
  | jne => exact conditionalJump_effect .ne h
  | jge => exact conditionalJump_effect .ge h
  | jg => exact conditionalJump_effect .gt h
  | call c =>
    obtain ⟨m, hm, rfl⟩ := execCall_next c s t h
    exact .call hm
  | ret =>
    obtain ⟨v, hv, rfl⟩ := execRet_next s t h
    exact .ret hv
  | pushq rA =>
    obtain ⟨a, m, ha, hm, rfl⟩ := execPushq_next rA s t h
    exact .pushq ha hm
  | popq rA =>
    obtain ⟨a, v, ha, hv, ⟨rfl, rfl⟩ | ⟨hne, rfl⟩⟩ := execPopq_next rA s t h
    · exact .popqSp ha hv
    · exact .popqOther ha hne hv

/-! ### One part of the state at a time -/

namespace ExecEffect

variable {i : Instr}

/-- The flags are as before, or those of an arithmetic result (R27). -/
theorem cc_cases (h : ExecEffect s i t) :
    t.cc = s.cc ∨ ∃ (op : AluOp) (rA rB : RegId) (r : Word), i = op.instr rA rB ∧ t.cc = flags r := by
  cases h with
  | arithmetic op => exact .inr ⟨op, _, _, _, rfl, rfl⟩
  | _ => exact .inl rfl

/-- The image is as before, or `rmmovq`, `call` or `pushq` has written one quad of it (R24). -/
theorem mem_cases (h : ExecEffect s i t) :
    t.mem = s.mem ∨
    ((∃ rA rB d, i = .rmmovq rA rB d) ∨ (∃ target, i = .call target) ∨ (∃ rA, i = .pushq rA)) ∧
      ∃ a v, s.mem.writeQuad a v = some t.mem := by
  cases h with
  | rmmovq _ _ hm => exact .inr ⟨.inl ⟨_, _, _, rfl⟩, _, _, hm⟩
  | call hm => exact .inr ⟨.inr (.inl ⟨_, rfl⟩), _, _, hm⟩
  | pushq _ hm => exact .inr ⟨.inr (.inr ⟨_, rfl⟩), _, _, hm⟩
  | _ => exact .inl rfl

/-- No instruction touches the host's state (R36). -/
theorem host_eq (h : ExecEffect s i t) : t.host = s.host := by
  cases h <;> rfl

theorem mem_size_eq (h : ExecEffect s i t) : t.mem.size = s.mem.size := by
  obtain hmem | ⟨-, a, v, hwrite⟩ := h.mem_cases
  · rw [hmem]
  · obtain ⟨-, hsize, -⟩ := Memory.writeQuad_spec _ _ _ _ hwrite
    exact hsize

theorem restSame (h : ExecEffect s i t) : RestSame s t := ⟨h.mem_size_eq, h.host_eq⟩

end ExecEffect

end

end Sys2Proof.Machine

namespace Sys2Proof.Safety.RegsSameBut

open Sys2Proof Sys2Proof.Machine

variable {rs : List RegId} {s u : State}

theorem refl (rs : List RegId) (s : State) : RegsSameBut rs s s := fun _ _ => rfl

theorem setPc (h : RegsSameBut rs s u) (c : Word) : RegsSameBut rs s (u.setPc c) := h

theorem setCc (h : RegsSameBut rs s u) (c : CC) : RegsSameBut rs s (u.setCc c) := h

theorem setMem (h : RegsSameBut rs s u) (m : Memory) : RegsSameBut rs s (u.setMem m) := h

/-- A write to a register that is among the exceptions. -/
theorem setReg (h : RegsSameBut rs s u) {r : RegId} {i : Fin 15} (hi : regIndex r = some i) (hr : r ∈ rs)
    (v : Word) : RegsSameBut rs s (u.setReg i v) := by
  intro q hq
  have hne : q ≠ r := fun e => hq (e ▸ hr)
  rw [State.setReg_readReg u r q i v hi, if_neg hne]
  exact h q hq

theorem setSp (h : RegsSameBut rs s u) (hsp : spReg ∈ rs) (v : Word) : RegsSameBut rs s (u.setSp v) :=
  h.setReg regIndex_spReg hsp v

end Sys2Proof.Safety.RegsSameBut

namespace Sys2Proof.Machine

open Sys2Proof Sys2Proof.Safety

/-- At most one register beside the stack pointer is written. -/
theorem ExecEffect.exists_regsSameBut {s t : State} {i : Instr} (h : ExecEffect s i t) :
    ∃ r, RegsSameBut [r, spReg] s t := by
  have same (r : RegId) : RegsSameBut [r, spReg] s s := .refl _ s
  have hsp (r : RegId) : spReg ∈ [r, spReg] := by simp
  cases h with
  | halt => exact ⟨spReg, same _⟩
  | nop => exact ⟨spReg, (same _).setPc _⟩
  | moveTaken _ _ hb => exact ⟨_, ((same _).setReg hb (.head _) _).setPc _⟩
  | moveNotTaken => exact ⟨spReg, (same _).setPc _⟩
  | irmovq _ hb => exact ⟨_, ((same _).setReg hb (.head _) _).setPc _⟩
  | rmmovq => exact ⟨spReg, ((same _).setMem _).setPc _⟩
  | mrmovq ha => exact ⟨_, ((same _).setReg ha (.head _) _).setPc _⟩
  | arithmetic _ _ hb => exact ⟨_, (((same _).setReg hb (.head _) _).setCc _).setPc _⟩
  | jump => exact ⟨spReg, (same _).setPc _⟩
  | call => exact ⟨spReg, (((same _).setMem _).setSp (hsp _) _).setPc _⟩
  | ret => exact ⟨spReg, ((same _).setSp (hsp _) _).setPc _⟩
  | pushq => exact ⟨spReg, (((same _).setMem _).setSp (hsp _) _).setPc _⟩
  | popqSp => exact ⟨spReg, ((same _).setSp (hsp _) _).setPc _⟩
  | popqOther ha => exact ⟨_, (((same _).setReg ha (.head _) _).setSp (hsp _) _).setPc _⟩

/-! ### The frames of the whole machine -/

theorem memorySame_of_mem_eq {s t : State} (h : t.mem = s.mem) : MemorySame s t := fun a => by rw [h]

/-- Settles O41: flags that differ are those of an arithmetic result. -/
theorem flagsChangeOnlyInArithmetic : Obligations.FlagsChangeOnlyInArithmetic := by
  intro i s t h hne
  obtain hcc | ⟨op, rA, rB, -, hi, -⟩ := (exec_effect h).cc_cases
  · exact absurd hcc hne
  · exact ⟨op, rA, rB, hi⟩

/-- Settles O42: an image in which some byte reads otherwise is not the same image. -/
theorem memoryChangesOnlyInStoreCallAndPush : Obligations.MemoryChangesOnlyInStoreCallAndPush := by
  intro i s t h hdiff
  obtain hmem | ⟨hi, -⟩ := (exec_effect h).mem_cases
  · exact absurd (memorySame_of_mem_eq hmem) hdiff
  · exact hi

/-- Settles O43, from the two frame lemmas of `ExecEffect`. -/
theorem noInstructionTouchesTheHostOrTheImageLength : Obligations.NoInstructionTouchesTheHostOrTheImageLength :=
  fun _ _ _ h => ⟨(exec_effect h).restSame, (exec_effect h).exists_regsSameBut⟩

end Sys2Proof.Machine
end

section
/-!
PROOF. The invariant of the machine: it holds at every session start, and every step keeps it (R26, R35, R38, R180).
-/

namespace Sys2Proof.Machine

open Sys2Proof Sys2Proof.Safety

/-! ### The step -/

/-- The flags of a result are never both set: 0 has no sign bit (R26, R101). -/
theorem flags_exclusive (r : Word) : (flags r).exclusive := by
  rintro ⟨hzero, hsign⟩
  have hr : r = 0 := by simpa [flags] using hzero
  subst hr
  simp [flags] at hsign

theorem ExecEffect.cc_exclusive {s t : State} {i : Instr} (h : ExecEffect s i t) (hs : s.cc.exclusive) :
    t.cc.exclusive := by
  obtain hcc | ⟨-, -, -, r, -, hcc⟩ := h.cc_cases
  · exact hcc ▸ hs
  · exact hcc ▸ flags_exclusive r

theorem ExecEffect.mem_wf {s t : State} {i : Instr} (h : ExecEffect s i t) (hs : s.mem.wf) : t.mem.wf := by
  obtain hmem | ⟨-, a, v, hwrite⟩ := h.mem_cases
  · exact hmem ▸ hs
  · exact Memory.writeQuad_wf _ _ _ _ hs hwrite

theorem cacheCoherent_redecode (s : State) : CacheCoherent s.redecode := rfl

/-- An instruction may leave the cached instruction stale; the re-decode after it restores the whole invariant (R34). -/
theorem ExecEffect.inv_redecode {s t : State} {i : Instr} (h : ExecEffect s i t) (hs : Inv s) : Inv t.redecode where
  memory := h.mem_wf hs.memory
  flags := h.cc_exclusive hs.flags
  breakpoints := by simpa only [BreakpointsOrdered, State.redecode_bp, h.host_eq] using hs.breakpoints
  cache := cacheCoherent_redecode t

/-- Settles O39: a step is an instruction's effect and the re-decode. -/
theorem everyStepKeepsTheInvariant : Obligations.EveryStepKeepsTheInvariant := by
  intro s t hs hstep
  obtain ⟨i, u, -, hexec, rfl⟩ := step_next s t hstep
  exact (exec_effect hexec).inv_redecode hs

/-! ### Reset and session start -/

theorem State.sessionStart_reg (m : Memory) (pc : Word) (i : Fin 15) :
    (State.sessionStart m pc).reg i = Config.regReset :=
  Vector.getElem_replicate i.isLt

theorem cacheCoherent_sessionStart (m : Memory) (pc : Word) : CacheCoherent (State.sessionStart m pc) := rfl

theorem inv_sessionStart (m : Memory) (pc : Word) (hm : m.wf) : Inv (State.sessionStart m pc) where
  memory := hm
  flags := by simp [State.sessionStart, CC.exclusive, Config.zfReset]
  breakpoints := List.Pairwise.nil
  cache := cacheCoherent_sessionStart m pc

theorem resetMemory_wf : resetMemory.wf :=
  ⟨by norm_num [resetMemory, Config.resetMemSize], List.Pairwise.nil, by simp [resetMemory]⟩

/-- A boot that succeeds answers the session start over the supplied image (R170, R171). -/
theorem boot_image_eq_ok {m : Memory} {start : Option Word} {s : State} (h : boot (.image m start) = .ok s) :
    s = State.sessionStart m (start.getD Config.startPc) := by
  simp only [boot] at h
  split at h
  next => cases h
  next =>
    split at h
    next => cases h
    next => cases h; rfl

/-- Settles O38: reset is a session start over the reset image, and a boot that succeeds is one over the image supplied. -/
theorem sessionsStartInTheInvariant : Obligations.SessionsStartInTheInvariant := by
  refine ⟨inv_sessionStart resetMemory Config.startPc resetMemory_wf, ?_⟩
  intro m start s hm hboot
  rw [boot_image_eq_ok hboot]
  exact inv_sessionStart m _ hm

/-- Settles O9: reset is a session start, whose registers all hold the reset value. -/
theorem resetHoldsTheDefaultsOfTheSpec : Obligations.ResetHoldsTheDefaultsOfTheSpec := by
  refine ⟨fun r hr => ?_, rfl, rfl, rfl, cacheCoherent_sessionStart _ _⟩
  obtain ⟨i, hi⟩ := exists_regIndex r hr
  have hreg : State.reset.reg i = 0 := State.sessionStart_reg resetMemory Config.startPc i
  rw [State.readReg_of_regIndex _ r i hi, hreg]

end Sys2Proof.Machine
end

section
/-!
PROOF. The byte and quad operations of the Memory Image as reads and writes of single bytes, and what a store leaves for
the decode that follows it (R41 to R47, R56).
-/

namespace Sys2Proof

/-! ### Bytes of a quad and bits of a byte -/

/-- Byte `k` of an assembled quad is the byte it was assembled from (R43, R44). -/
theorem byteOfQuad_quadOfBytes (f : Nat → Byte) {k : Nat} (hk : k < 8) :
    byteOfQuad (quadOfBytes (f 0) (f 1) (f 2) (f 3) (f 4) (f 5) (f 6) (f 7)) k = f k := by
  have hlist := congrArg (·[k]?) (bytesOfQuad_quadOfBytes (f 0) (f 1) (f 2) (f 3) (f 4) (f 5) (f 6) (f 7))
  simp only [Machine.Memory.getElem?_bytesOfQuad _ k hk] at hlist
  interval_cases k <;> simpa using hlist

/-- Bit `i` of a quad is bit `i % 8` of its byte `i / 8` (R44). -/
theorem getLsbD_eq_getLsbD_byteOfQuad (v : Word) (i : Nat) :
    v.getLsbD i = (byteOfQuad v (i / 8)).getLsbD (i % 8) := by
  simp [byteOfQuad, Nat.mod_lt, Nat.div_add_mod]

/-- Two quads agree on 32-bit fields at byte offsets `j` and `l` when the four bytes there agree. -/
theorem extractLsb'_eq_of_byteOfQuad_eq {v w : Word} {j l : Nat}
    (h : ∀ k, k < 4 → byteOfQuad w (j + k) = byteOfQuad v (l + k)) :
    w.extractLsb' (8 * j) 32 = v.extractLsb' (8 * l) 32 := by
  apply BitVec.eq_of_getLsbD_eq
  intro i hi
  have hdiv (n : Nat) : (8 * n + i) / 8 = n + i / 8 := by omega
  have hmod (n : Nat) : (8 * n + i) % 8 = i % 8 := by omega
  simp only [BitVec.getLsbD_extractLsb', hi, decide_true, Bool.true_and]
  rw [getLsbD_eq_getLsbD_byteOfQuad w, getLsbD_eq_getLsbD_byteOfQuad v, hdiv, hdiv, hmod, hmod,
    h (i / 8) (by omega)]

/-- Bits `[7:4]` of a quad's first byte are bits `[7:4]` of the quad (R10). -/
theorem highNibble_byteOfQuad_zero (v : Word) : highNibble (byteOfQuad v 0) = v.extractLsb' 4 4 := by
  apply BitVec.eq_of_getLsbD_eq
  intro i hi
  simp [highNibble, byteOfQuad]

/-- Bits `[3:0]` of a quad's first byte are bits `[3:0]` of the quad (R10). -/
theorem lowNibble_byteOfQuad_zero (v : Word) : lowNibble (byteOfQuad v 0) = v.extractLsb' 0 4 := by
  apply BitVec.eq_of_getLsbD_eq
  intro i hi
  simp [lowNibble, byteOfQuad]

/-! ### The opcode byte of a decoded record -/

theorem Record.withRegByte_opcode {i i2 : Record} {c : OpClass} {bs : List Byte}
    (h : i.withRegByte c bs = some i2) : i2.icode = i.icode ∧ i2.ifun = i.ifun := by
  unfold Record.withRegByte at h
  split at h
  next =>
    obtain ⟨b1, -, rfl⟩ := Option.map_eq_some_iff.1 h
    exact ⟨rfl, rfl⟩
  next => cases h; exact ⟨rfl, rfl⟩

theorem Record.withConst_opcode {i i3 : Record} {c : OpClass} {bs : List Byte}
    (h : i.withConst c bs = some i3) : i3.icode = i.icode ∧ i3.ifun = i.ifun := by
  unfold Record.withConst at h
  split at h
  next =>
    obtain ⟨v, -, rfl⟩ := Option.map_eq_some_iff.1 h
    exact ⟨rfl, rfl⟩
  next => cases h; exact ⟨rfl, rfl⟩

/-- The later stages of a decode leave the class and the function as the opcode byte gave them, on success and on
failure (R73, R76). -/
theorem decodeClass_opcode (c : OpClass) (i : Record) (bs : List Byte) :
    (decodeClass c i bs).1.icode = i.icode ∧ (decodeClass c i bs).1.ifun = i.ifun := by
  obtain ⟨-, h⟩ | ⟨i2, hreg, -, h⟩ | ⟨i2, i3, hreg, hconst, h⟩ := decodeClass_cases c i bs
  · rw [h]; exact ⟨rfl, rfl⟩
  · rw [h]; exact Record.withRegByte_opcode hreg
  · obtain ⟨hcode, hfun⟩ := Record.withRegByte_opcode hreg
    obtain ⟨hcode', hfun'⟩ := Record.withConst_opcode hconst
    rw [h]
    exact ⟨hcode'.trans hcode, hfun'.trans hfun⟩

/-- The class and the function of a record are the nibbles of the opcode byte, whatever the decode's status (R63). -/
theorem decodeRecord_opcode (pc : Word) (b0 : Byte) (rest : List Byte) :
    (decodeRecord pc (b0 :: rest)).1.icode = highNibble b0 ∧
      (decodeRecord pc (b0 :: rest)).1.ifun = lowNibble b0 := by
  simp only [decodeRecord]
  cases OpClass.ofCode ((Record.default pc).withOpcode b0).icode with
  | none => exact ⟨rfl, rfl⟩
  | some c => exact decodeClass_opcode c _ _

end Sys2Proof

namespace Sys2Proof.Machine

open Sys2Proof

namespace Memory

/-! ### One byte -/

theorem readByte_eq_none (m : Memory) (a : Word) : m.readByte a = none ↔ m.size ≤ a.toNat := by
  simp [readByte]

theorem writeByte_eq_none (m : Memory) (a : Word) (v : Byte) : m.writeByte a v = none ↔ m.size ≤ a.toNat := by
  simp [writeByte]

theorem readByte_of_lt (m : Memory) {a : Word} (h : a.toNat < m.size) : m.readByte a = some (m.get a.toNat) :=
  (readByte_eq_some m a _).2 ⟨h, rfl⟩

theorem writeByte_of_lt (m : Memory) {a : Word} (v : Byte) (h : a.toNat < m.size) :
    m.writeByte a v = some (m.set a.toNat v) :=
  (writeByte_eq_some m _ a v).2 ⟨h, rfl⟩

theorem readByte_set_same (m : Memory) {a : Word} (v : Byte) (h : a.toNat < m.size) :
    (m.set a.toNat v).readByte a = some v :=
  (readByte_eq_some _ a v).2 ⟨h, by rw [get_set, if_pos rfl]⟩

theorem readByte_set_of_ne (m : Memory) {a b : Word} (v : Byte) (h : b ≠ a) :
    (m.set a.toNat v).readByte b = m.readByte b := by
  have hne : b.toNat ≠ a.toNat := mt BitVec.eq_of_toNat_eq h
  simp only [readByte, size_set, get_set, if_neg hne]

/-- Settles O34: a byte write is `set`, and a byte read is `get`. -/
theorem byteOperationsTouchOneByteInsideTheImage : Obligations.ByteOperationsTouchOneByteInsideTheImage := by
  intro m a v
  constructor
  · intro hout
    exact ⟨(readByte_eq_none m a).2 hout, (writeByte_eq_none m a v).2 hout⟩
  · intro hin
    exact ⟨readByte_of_lt m hin, m.set a.toNat v, writeByte_of_lt m v hin, size_set m a.toNat v,
      readByte_set_same m v hin, fun b hb => readByte_set_of_ne m v hb⟩

/-! ### Quads, byte by byte -/

/-- Everything `readQuad` can do, byte by byte (R43): it answers the one quad whose bytes are those of the span. -/
theorem readQuad_eq_some_iff_bytes (m : Memory) (a w : Word) :
    m.readQuad a = some w ↔ a.toNat + 7 < m.size ∧ ∀ k, k < 8 → byteOfQuad w k = m.get (a.toNat + k) := by
  rw [readQuad_eq_some]
  refine and_congr_right fun _ => ⟨?_, fun h => ?_⟩
  · rintro rfl k hk
    exact byteOfQuad_quadOfBytes (fun j => m.get (a.toNat + j)) hk
  · have hquad := quadOfBytes_byteOfQuad w
    rwa [h 0 (by decide), h 1 (by decide), h 2 (by decide), h 3 (by decide), h 4 (by decide), h 5 (by decide),
      h 6 (by decide), h 7 (by decide)] at hquad

theorem exists_readQuad (m : Memory) {a : Word} (h : a.toNat + 7 < m.size) : ∃ w, m.readQuad a = some w := by
  rw [← Option.ne_none_iff_exists', Ne, readQuad_eq_none]
  omega

theorem exists_writeQuad (m : Memory) {a : Word} (v : Word) (h : a.toNat + 7 < m.size) :
    ∃ m', m.writeQuad a v = some m' := by
  rw [← Option.ne_none_iff_exists', Ne, writeQuad_eq_none]
  omega

/-- A quad reads back as it was written (R43, R44). -/
theorem readQuad_of_writeQuad {m m' : Memory} {a v : Word} (h : m.writeQuad a v = some m') :
    m'.readQuad a = some v := by
  obtain ⟨hbound, hsize, hbytes, -⟩ := writeQuad_spec m m' a v h
  rw [readQuad_eq_some_iff_bytes, hsize]
  exact ⟨hbound, fun k hk => (hbytes k hk).symm⟩

/-- Settles O35, from what the quad operations do to each byte. -/
theorem quadOperationsAreLittleEndianAndAllOrNothing : Obligations.QuadOperationsAreLittleEndianAndAllOrNothing := by
  intro m a v
  constructor
  · intro hout
    exact ⟨(readQuad_eq_none m a).2 hout, (writeQuad_eq_none m a v).2 hout⟩
  · intro hin
    obtain ⟨w, hread⟩ := exists_readQuad m hin
    obtain ⟨-, hread_bytes⟩ := (readQuad_eq_some_iff_bytes m a w).1 hread
    obtain ⟨m', hwrite⟩ := exists_writeQuad m v hin
    obtain ⟨-, hsize, hbytes, hframe⟩ := writeQuad_spec m m' a v hwrite
    exact ⟨⟨w, hread, hread_bytes⟩, m', hwrite, hsize, readQuad_of_writeQuad hwrite, hbytes, hframe⟩

/-- Settles O36: bytes 0 to 3 of the quad read are bytes 4 to 7 of the quad written. -/
theorem overlappingQuadReadSeesTheWrittenBytes : Obligations.OverlappingQuadReadSeesTheWrittenBytes := by
  intro m m' a b v w hwrite hread hb
  obtain ⟨-, -, hbytes, -⟩ := writeQuad_spec m m' a v hwrite
  obtain ⟨-, hread_bytes⟩ := (readQuad_eq_some_iff_bytes m' b w).1 hread
  refine extractLsb'_eq_of_byteOfQuad_eq (j := 0) (l := 4) fun k hk => ?_
  calc byteOfQuad w (0 + k)
      = m'.get (b.toNat + k) := by rw [Nat.zero_add, hread_bytes k (by omega)]
    _ = m'.get (a.toNat + (4 + k)) := by rw [hb, Nat.add_assoc]
    _ = byteOfQuad v (4 + k) := hbytes (4 + k) (by omega)

/-! ### The decode after a store -/

/-- Inside the image the Decoder's bytes begin with the one at the program counter (R78). -/
theorem exists_fetchBytes_eq_cons (m : Memory) {pc : Word} (h : pc.toNat < m.size) :
    ∃ rest, m.fetchBytes pc = m.get pc.toNat :: rest := by
  have hhead : (m.fetchBytes pc)[0]? = some (m.get pc.toNat) := by
    rw [fetchBytes, getElem?_window, if_pos ⟨by decide, h⟩, Nat.add_zero]
  rw [← List.head?_eq_getElem?] at hhead
  exact List.head?_eq_some_iff.1 hhead

end Memory

/-- Inside the image the record decoded at the program counter has the class and the function of the byte there. -/
theorem decodeHere_opcode (s : State) (h : s.pc.toNat < s.mem.size) :
    s.decodeHere.record.icode = highNibble (s.mem.get s.pc.toNat) ∧
      s.decodeHere.record.ifun = lowNibble (s.mem.get s.pc.toNat) := by
  obtain ⟨rest, hfetch⟩ := s.mem.exists_fetchBytes_eq_cons h
  have hrecord : s.decodeHere.record = (decodeRecord s.pc (s.mem.get s.pc.toNat :: rest)).1 := by
    rw [← hfetch]; rfl
  rw [hrecord]
  exact decodeRecord_opcode s.pc _ rest

/-- Where a quad was written at the program counter, the record decoded there has the class and the function of the
quad's first byte (R56). -/
theorem decodeHere_opcode_of_writeQuad {m : Memory} {s : State} {v : Word}
    (h : m.writeQuad s.pc v = some s.mem) :
    s.decodeHere.record.icode = v.extractLsb' 4 4 ∧ s.decodeHere.record.ifun = v.extractLsb' 0 4 := by
  obtain ⟨hbound, hsize, hbytes, -⟩ := Memory.writeQuad_spec m s.mem s.pc v h
  have hfirst : s.mem.get s.pc.toNat = byteOfQuad v 0 := hbytes 0 (by decide)
  have hopcode := decodeHere_opcode s (by omega)
  rwa [hfirst, highNibble_byteOfQuad_zero, lowNibble_byteOfQuad_zero] at hopcode

/-- Settles O37: the store writes the stored quad at the program counter that it leaves. -/
theorem storeIsSeenByTheNextDecode : Obligations.StoreIsSeenByTheNextDecode := by
  intro rA rB d v base s t hA hB haddr hexec
  obtain ⟨a, b, m, ha, hb, hwrite, rfl⟩ := execRmmovq_next rA rB d s t hexec
  obtain rfl : s.reg a = v := Option.some.inj ((s.readReg_of_regIndex rA a ha).symm.trans hA)
  obtain rfl : s.reg b = base := Option.some.inj ((s.readReg_of_regIndex rB b hb).symm.trans hB)
  rw [haddr] at hwrite
  exact decodeHere_opcode_of_writeQuad (s := (s.setMem m).setPc (s.valP .rmmov)) hwrite

end Sys2Proof.Machine
end

section
/-!
PROOF. The decoded record: that of a well-formed instruction, that of a byte of no class, when it is TOO_SHORT, and that
it is a function of the ten bytes at the program counter (R61, R62, R68, R73 to R78, R87).
-/

namespace Sys2Proof

/-! ### The record of a well-formed instruction -/

theorem encode_move (p : Predicate) (rA rB : RegId) :
    encode (p.move rA rB) = encodeF2 OpClass.cmov.code p.code rA rB := by cases p <;> rfl

theorem encode_jump (p : Predicate) (t : Word) : encode (p.jump t) = encodeF9 OpClass.jump.code p.code t := by
  cases p <;> rfl

theorem encode_aluInstr (op : AluOp) (rA rB : RegId) :
    encode (op.instr rA rB) = encodeF2 OpClass.opq.code op.code rA rB := by cases op <;> rfl

/-- The record with the class `c` and the fields given, read at `pc` (R61, R68). -/
def Record.ofFields (pc : Word) (c : OpClass) (f : Nibble) (rA rB : RegId) (v : Word) : Record where
  icode := c.code
  ifun := f
  rA := rA
  rB := rB
  valC := v
  valP := pc + BitVec.ofNat 64 c.length
  addr := pc

/-- The opcode map by class (R64, R82): the well-formed instructions, and the class and the record of each at `pc`. -/
inductive OpcodeMap (pc : Word) : Instr → OpClass → Record → Prop where
  | halt : OpcodeMap pc .halt .halt (.ofFields pc .halt 0 noReg noReg 0)
  | nop : OpcodeMap pc .nop .nop (.ofFields pc .nop 0 noReg noReg 0)
  | move (p : Predicate) {rA rB : RegId} (hA : present rA = true) (hB : present rB = true) :
      OpcodeMap pc (p.move rA rB) .cmov (.ofFields pc .cmov p.code rA rB 0)
  | irmovq {rB : RegId} (v : Word) (hB : present rB = true) :
      OpcodeMap pc (.irmovq rB v) .irmov (.ofFields pc .irmov 0 noReg rB v)
  | rmmovq {rA rB : RegId} (d : Word) (hA : present rA = true) (hB : present rB = true) :
      OpcodeMap pc (.rmmovq rA rB d) .rmmov (.ofFields pc .rmmov 0 rA rB d)
  | mrmovq {rA rB : RegId} (d : Word) (hA : present rA = true) (hB : present rB = true) :
      OpcodeMap pc (.mrmovq rA rB d) .mrmov (.ofFields pc .mrmov 0 rA rB d)
  | arithmetic (op : AluOp) {rA rB : RegId} (hA : present rA = true) (hB : present rB = true) :
      OpcodeMap pc (op.instr rA rB) .opq (.ofFields pc .opq op.code rA rB 0)
  | jump (p : Predicate) (t : Word) : OpcodeMap pc (p.jump t) .jump (.ofFields pc .jump p.code noReg noReg t)
  | call (t : Word) : OpcodeMap pc (.call t) .call (.ofFields pc .call 0 noReg noReg t)
  | ret : OpcodeMap pc .ret .ret (.ofFields pc .ret 0 noReg noReg 0)
  | pushq {rA : RegId} (hA : present rA = true) :
      OpcodeMap pc (.pushq rA) .push (.ofFields pc .push 0 rA noReg 0)
  | popq {rA : RegId} (hA : present rA = true) : OpcodeMap pc (.popq rA) .pop (.ofFields pc .pop 0 rA noReg 0)

/-- Every well-formed instruction is in the opcode map. -/
theorem exists_opcodeMap (pc : Word) (i : Instr) (h : i.wellFormed = true) : ∃ c r, OpcodeMap pc i c r := by
  have move (p : Predicate) {f : Nibble} {rA rB : RegId}
      (h : (cmovCodeLegal f && present rA && present rB) = true) : ∃ c r, OpcodeMap pc (p.move rA rB) c r := by
    simp only [Bool.and_eq_true] at h
    obtain ⟨⟨-, hA⟩, hB⟩ := h
    exact ⟨_, _, .move p hA hB⟩
  have arithmetic (op : AluOp) {rA rB : RegId}
      (h : (present rA && present rB) = true) : ∃ c r, OpcodeMap pc (op.instr rA rB) c r := by
    obtain ⟨hA, hB⟩ := Bool.and_eq_true_iff.1 h
    exact ⟨_, _, .arithmetic op hA hB⟩
  cases i with
  | halt => exact ⟨_, _, .halt⟩
  | nop => exact ⟨_, _, .nop⟩
  | rrmovq => exact move .always h
  | cmovle => exact move .le h
  | cmovl => exact move .lt h
  | cmove => exact move .eq h
  | cmovne => exact move .ne h
  | cmovge => exact move .ge h
  | cmovg => exact move .gt h
  | irmovq rB v => exact ⟨_, _, .irmovq v h⟩
  | rmmovq rA rB d =>
    obtain ⟨hA, hB⟩ := Bool.and_eq_true_iff.1 h
    exact ⟨_, _, .rmmovq d hA hB⟩
  | mrmovq rA rB d =>
    obtain ⟨hA, hB⟩ := Bool.and_eq_true_iff.1 h
    exact ⟨_, _, .mrmovq d hA hB⟩
  | addq => exact arithmetic .add h
  | subq => exact arithmetic .sub h
  | andq => exact arithmetic .and h
  | xorq => exact arithmetic .xor h
  | mulq => exact arithmetic .mul h
  | divq => exact arithmetic .div h
  | modq => exact arithmetic .mod h
  | jmp t => exact ⟨_, _, .jump .always t⟩
  | jle t => exact ⟨_, _, .jump .le t⟩
  | jl t => exact ⟨_, _, .jump .lt t⟩
  | je t => exact ⟨_, _, .jump .eq t⟩
  | jne t => exact ⟨_, _, .jump .ne t⟩
  | jge t => exact ⟨_, _, .jump .ge t⟩
  | jg t => exact ⟨_, _, .jump .gt t⟩
  | call t => exact ⟨_, _, .call t⟩
  | ret => exact ⟨_, _, .ret⟩
  | pushq => exact ⟨_, _, .pushq h⟩
  | popq => exact ⟨_, _, .popq h⟩

namespace OpcodeMap

variable {pc : Word} {i : Instr} {c : OpClass} {r : Record}

/-- The bytes of the encoding, at `pc`, are read as the record of the map (R66, R73). -/
theorem decodeRecord_encode (h : OpcodeMap pc i c r) (rest : List Byte) :
    decodeRecord pc (encode i ++ rest) = (r, r.verdict c) := by
  cases h with
  | halt => exact decodeRecord_encodeF1 pc .halt 0 rest rfl rfl
  | nop => exact decodeRecord_encodeF1 pc .nop 0 rest rfl rfl
  | move p => rw [encode_move]; exact decodeRecord_encodeF2 pc .cmov _ _ _ rest rfl rfl
  | irmovq v => exact decodeRecord_encodeF10 pc .irmov 0 _ _ v rest rfl rfl
  | rmmovq d => exact decodeRecord_encodeF10 pc .rmmov 0 _ _ d rest rfl rfl
  | mrmovq d => exact decodeRecord_encodeF10 pc .mrmov 0 _ _ d rest rfl rfl
  | arithmetic op => rw [encode_aluInstr]; exact decodeRecord_encodeF2 pc .opq _ _ _ rest rfl rfl
  | jump p t => rw [encode_jump]; exact decodeRecord_encodeF9 pc .jump _ t rest rfl rfl
  | call t => exact decodeRecord_encodeF9 pc .call 0 t rest rfl rfl
  | ret => exact decodeRecord_encodeF1 pc .ret 0 rest rfl rfl
  | pushq => exact decodeRecord_encodeF2 pc .push 0 _ _ rest rfl rfl
  | popq => exact decodeRecord_encodeF2 pc .pop 0 _ _ rest rfl rfl

theorem length_encode (h : OpcodeMap pc i c r) : (encode i).length = c.length := by
  cases h with
  | move => rw [encode_move]; rfl
  | arithmetic => rw [encode_aluInstr]; rfl
  | jump => rw [encode_jump]; rfl
  | _ => rfl

theorem addr_eq (h : OpcodeMap pc i c r) : r.addr = pc := by cases h <;> rfl

theorem valP_eq (h : OpcodeMap pc i c r) : r.valP = pc + BitVec.ofNat 64 c.length := by cases h <;> rfl

/-- The record stands for the instruction (R82). -/
theorem instr_eq (h : OpcodeMap pc i c r) : r.instr = some i := by
  cases h with
  | move | arithmetic | jump => simp [Record.instr, Record.ofFields]
  | _ => rfl

/-- The record is legal (R71, R72). -/
theorem legal (h : OpcodeMap pc i c r) : r.legal = true := by
  have absent : present noReg = false := rfl
  cases h with
  | move _ hA hB | arithmetic _ hA hB | rmmovq _ hA hB | mrmovq _ hA hB =>
    simp [Record.legal, Record.ofFields, hA, hB]
  | irmovq _ hB => simp [Record.legal, Record.ofFields, absent, hB]
  | pushq hA | popq hA => simp [Record.legal, Record.ofFields, absent, hA]
  | jump => simp [Record.legal, Record.ofFields]
  | _ => rfl

theorem class_eq_halt_iff (h : OpcodeMap pc i c r) : c = .halt ↔ i = .halt := by
  cases h with
  | move p => cases p <;> simp [Predicate.move]
  | arithmetic op => cases op <;> simp [AluOp.instr]
  | jump p => cases p <;> simp [Predicate.jump]
  | _ => simp

/-- The verdict over a legal record is VALID_HALT for halt alone (R62). -/
theorem verdict_eq (h : OpcodeMap pc i c r) :
    r.verdict c = if i = .halt then .validHalt else .validContinue := by
  simp only [Record.verdict, h.legal, if_true, h.class_eq_halt_iff]

end OpcodeMap

/-- Settles O4: the bytes of an instruction of the opcode map are read as the record that the map gives it. -/
theorem decodedRecordHoldsAddressesAndStatus : Obligations.DecodedRecordHoldsAddressesAndStatus := by
  intro pc i rest hwf
  obtain ⟨c, r, hmap⟩ := exists_opcodeMap pc i hwf
  refine ⟨r, r.verdict c, hmap.decodeRecord_encode rest, hmap.instr_eq, hmap.addr_eq, ?_, hmap.verdict_eq⟩
  rw [hmap.valP_eq, hmap.length_encode]

/-! ### The opcode byte -/

theorem highNibble_eq_ofNat (b : Byte) : highNibble b = BitVec.ofNat 4 (b.toNat / 16) := by
  revert b; decide

theorem lowNibble_eq_ofNat (b : Byte) : lowNibble b = BitVec.ofNat 4 (b.toNat % 16) := by
  revert b; decide

/-- The codes of no class are `0xC` to `0xF` (R64). -/
theorem OpClass.ofCode_eq_none_iff (n : Nibble) : OpClass.ofCode n = none ↔ 0xC ≤ n.toNat := by
  revert n; decide

/-- A byte of no class: nothing after it is read (R74). -/
theorem decodeRecord_of_ofCode_none (pc : Word) {b0 : Byte} (rest : List Byte)
    (h : OpClass.ofCode (highNibble b0) = none) :
    decodeRecord pc (b0 :: rest) = ((Record.default pc).withOpcode b0, .invalid) := by
  simp [decodeRecord, Record.withOpcode, h]

/-- A byte of the class `c`: the stages of that class follow (R73). -/
theorem decodeRecord_of_ofCode_some (pc : Word) {b0 : Byte} {c : OpClass} (rest : List Byte)
    (h : OpClass.ofCode (highNibble b0) = some c) :
    decodeRecord pc (b0 :: rest) =
      decodeClass c { (Record.default pc).withOpcode b0 with valP := pc + BitVec.ofNat 64 c.length } (b0 :: rest) := by
  simp [decodeRecord, Record.withOpcode, h]

/-- Settles O7: the high nibble is the code of no class. -/
theorem unknownClassIsInvalidAfterOneByte : Obligations.UnknownClassIsInvalidAfterOneByte := by
  intro pc b0 rest hb
  have hnone : OpClass.ofCode (highNibble b0) = none := by
    rw [OpClass.ofCode_eq_none_iff, highNibble_eq_ofNat, BitVec.toNat_ofNat]
    omega
  rw [decodeRecord_of_ofCode_none pc rest hnone, ← highNibble_eq_ofNat, ← lowNibble_eq_ofNat]
  rfl

/-! ### TOO_SHORT -/

theorem Record.withRegByte_eq_none_iff (i : Record) (c : OpClass) (bs : List Byte) :
    i.withRegByte c bs = none ↔ c.hasRegByte = true ∧ bs.length ≤ 1 := by
  unfold Record.withRegByte
  cases c.hasRegByte <;> simp

theorem Record.withConst_eq_none_iff (i : Record) (c : OpClass) (bs : List Byte) :
    i.withConst c bs = none ↔ c.hasConst = true ∧ bs.length < c.constOffset + 8 := by
  unfold Record.withConst
  cases c.hasConst with
  | false => simp
  | true =>
    simp only [if_true, Option.map_eq_none_iff, quadOfList_eq_none, List.length_drop, true_and]
    omega

/-- The opcode byte, the register byte and the constant are all that an instruction has (R66, R67). -/
theorem OpClass.length_le_iff (c : OpClass) (n : Nat) :
    c.length ≤ n ↔ 0 < n ∧ (c.hasRegByte = true → 1 < n) ∧ (c.hasConst = true → c.constOffset + 8 ≤ n) := by
  unfold OpClass.length OpClass.constOffset
  cases c.hasRegByte <;> cases c.hasConst <;> simp <;> omega

/-- The decode of a known class is TOO_SHORT exactly when a byte of the instruction is missing (R73, R75). -/
theorem decodeClass_eq_tooShort_iff (c : OpClass) (i : Record) {bs : List Byte} (h0 : 0 < bs.length) :
    (decodeClass c i bs).2 = .tooShort ↔ bs.length < c.length := by
  rw [← not_le, OpClass.length_le_iff]
  obtain ⟨hreg, h⟩ | ⟨i2, -, hconst, h⟩ | ⟨i2, i3, hreg, hconst, h⟩ := decodeClass_cases c i bs
  · obtain ⟨hR, hlen⟩ := (i.withRegByte_eq_none_iff c bs).1 hreg
    simp only [h, true_iff]
    rintro ⟨-, hone, -⟩
    exact absurd (hone hR) (not_lt.2 hlen)
  · obtain ⟨hC, hlen⟩ := (i2.withConst_eq_none_iff c bs).1 hconst
    simp only [h, true_iff]
    rintro ⟨-, -, hend⟩
    exact absurd (hend hC) (not_le.2 hlen)
  · have hreg' : ¬ (c.hasRegByte = true ∧ bs.length ≤ 1) := by simp [← i.withRegByte_eq_none_iff, hreg]
    have hconst' : ¬ (c.hasConst = true ∧ bs.length < c.constOffset + 8) := by
      simp [← i2.withConst_eq_none_iff, hconst]
    simp only [h, i3.verdict_ne_tooShort c, false_iff, not_not]
    exact ⟨h0, fun hR => not_le.1 fun hle => hreg' ⟨hR, hle⟩, fun hC => not_lt.1 fun hlt => hconst' ⟨hC, hlt⟩⟩

/-- No instruction is longer than the Decoder's ten bytes (R66, R78). -/
theorem OpClass.length_le_maxLength (c : OpClass) : c.length ≤ maxLength := by
  cases c <;> decide

end Sys2Proof

namespace Sys2Proof.Machine

open Sys2Proof

/-! ### The bytes at the program counter -/

namespace Memory

theorem fetchBytes_eq_nil_iff (m : Memory) (pc : Word) : m.fetchBytes pc = [] ↔ m.size ≤ pc.toNat := by
  rw [← List.length_eq_zero_iff, fetchBytes, length_window, maxLength]
  omega

/-- Two images of one length that agree on the ten bytes from `pc` give the Decoder the same bytes (R78). -/
theorem fetchBytes_congr {m m' : Memory} {pc : Word} (hsize : m'.size = m.size)
    (hbytes : ∀ n, pc.toNat ≤ n → n ≤ pc.toNat + 9 → m'.get n = m.get n) : m'.fetchBytes pc = m.fetchBytes pc := by
  apply List.ext_getElem?
  intro k
  simp only [fetchBytes, getElem?_window, hsize]
  split
  next hk =>
    have hten : k < 10 := hk.1
    rw [hbytes (pc.toNat + k) (by omega) (by omega)]
  next => rfl

end Memory

/-- Settles O6: the Decoder has no byte to read at such a program counter. -/
theorem counterOutsideTheImageDecodesTooShort : Obligations.CounterOutsideTheImageDecodesTooShort := by
  intro s hout
  have hnil : s.mem.fetchBytes s.pc = [] := (s.mem.fetchBytes_eq_nil_iff s.pc).2 hout
  have hdecode : decodeRecord s.pc (s.mem.fetchBytes s.pc) = (Record.default s.pc, .tooShort) := by
    rw [hnil]; rfl
  exact ⟨congrArg Prod.snd hdecode, congrArg Prod.fst hdecode⟩

/-- Settles O5: the Decoder's bytes are fewer than the class needs exactly when the image ends among them. -/
theorem knownClassIsTooShortExactlyWhenTheImageEnds : Obligations.KnownClassIsTooShortExactlyWhenTheImageEnds := by
  intro s b0 c hread hclass
  obtain ⟨hin, rfl⟩ := (s.mem.readByte_eq_some s.pc b0).1 hread
  obtain ⟨rest, hfetch⟩ := s.mem.exists_fetchBytes_eq_cons hin
  have hlength : (s.mem.fetchBytes s.pc).length = min maxLength (s.mem.size - s.pc.toNat) :=
    s.mem.length_window s.pc.toNat maxLength
  have hmax : c.length ≤ maxLength := c.length_le_maxLength
  have hshort : s.decodeHere.status = .tooShort ↔ (s.mem.fetchBytes s.pc).length < c.length := by
    simp only [State.decodeHere, cacheAt, hfetch, decodeRecord_of_ofCode_some s.pc rest hclass]
    exact decodeClass_eq_tooShort_iff c _ (by simp)
  rw [hshort, hlength]
  omega

/-- Settles O8: the two images give the Decoder the same bytes at the same address. -/
theorem decodeDependsOnlyOnTheBytesAtTheCounter : Obligations.DecodeDependsOnlyOnTheBytesAtTheCounter := by
  intro s t hpc hsize hbytes
  simp only [State.decodeHere, cacheAt, hpc, Memory.fetchBytes_congr hsize hbytes]

end Sys2Proof.Machine
end

section
/-!
PROOF. The moves: what each one's bytes decode to, what it answers, and its whole effect (R90 to R100).
-/

namespace Sys2Proof

open Sys2Proof.Safety

/-! ### Encodings -/

/-- The encoding of an instruction of the opcode map decodes to it, whatever follows (R73, R82). -/
theorem OpcodeMap.encodes {i : Instr} {c : OpClass} {r : Record} (h : OpcodeMap 0 i c r) : Encodes (encode i) i := by
  intro rest
  simp only [decode, h.decodeRecord_encode rest, h.verdict_eq]
  split <;> simp only [instrOfDecoded, h.instr_eq]

end Sys2Proof

namespace Sys2Proof.Machine

open Sys2Proof Sys2Proof.Safety

/-! ### Operands -/

/-- An identifier that reads as a value names a register that holds it (R20, R21). -/
theorem State.exists_regIndex_of_readReg {s : State} {r : RegId} {v : Word} (h : s.readReg r = some v) :
    ∃ i, regIndex r = some i ∧ s.reg i = v :=
  Option.map_eq_some_iff.1 h

theorem present_of_regIndex {r : RegId} {i : Fin 15} (h : regIndex r = some i) : present r = true := by
  rw [present_iff, Ne, ← regIndex_eq_none, h]
  exact Option.some_ne_none i

/-- The effective address is the sum modulo 2^64 (R67). -/
theorem effectiveAddress_eq_ofNat (base d : Word) :
    effectiveAddress base d = BitVec.ofNat 64 (base.toNat + d.toNat) :=
  BitVec.add_def base d

/-! ### Quads in the image, byte by byte -/

theorem holdsQuad_of_readQuad {s : State} {a v : Word} (h : s.readQuad a = some v) : HoldsQuad s a v := by
  obtain ⟨hbound, hbytes⟩ := (s.mem.readQuad_eq_some_iff_bytes a v).1 h
  intro b k hk hb
  refine (s.mem.readByte_eq_some b _).2 ⟨by omega, ?_⟩
  rw [hb, ← hbytes k hk, byteOfQuad]

section

variable {s t : State} {a v : Word}

theorem holdsQuad_of_writeQuad (h : s.mem.writeQuad a v = some t.mem) : HoldsQuad t a v :=
  holdsQuad_of_readQuad (Memory.readQuad_of_writeQuad h)

theorem memorySameOutside_of_writeQuad (h : s.mem.writeQuad a v = some t.mem) : MemorySameOutside a s t := by
  obtain ⟨-, hsize, -, hframe⟩ := Memory.writeQuad_spec _ _ _ _ h
  intro b hb
  simp only [Memory.readByte, hsize, hframe b.toNat hb]

theorem size_eq_of_writeQuad (h : s.mem.writeQuad a v = some t.mem) : t.mem.size = s.mem.size := by
  obtain ⟨-, hsize, -⟩ := Memory.writeQuad_spec _ _ _ _ h
  exact hsize

end

/-! ### What a move answers -/

section

variable {rA rB : RegId} {a b : Fin 15} (s : State)

/-- A read that leaves the image ends the instruction (R43, R142). -/
theorem withQuad_of_size_le {x : Word} (k : Word → Outcome) (h : s.mem.size ≤ x.toNat + 7) :
    withQuad s x k = .fault .memReadOob := by
  simp only [withQuad, State.readQuad, (s.mem.readQuad_eq_none x).2 h, raise]

/-- A write that leaves the image ends the instruction (R44, R142). -/
theorem storingQuad_of_size_le {x : Word} (v : Word) (k : State → Outcome) (h : s.mem.size ≤ x.toNat + 7) :
    storingQuad s x v k = .fault .memWriteOob := by
  simp only [storingQuad, State.writeQuad, (s.mem.writeQuad_eq_none x v).2 h, Option.map_none, raise]

/-- With both operands present a conditional move always completes (R90). -/
theorem exec_move_of_regIndex (p : Predicate) (ha : regIndex rA = some a) (hb : regIndex rB = some b) :
    exec (p.move rA rB) s =
      .next ((if cond p s.cc then s.setReg b (s.reg a) else s).setPc (s.valP .cmov)) := by
  have hfamily : exec (p.move rA rB) s = conditionalMove p rA rB s := by cases p <;> rfl
  rw [hfamily, conditionalMove, if_pos (cmovCodeLegal_code p), withReg_of_regIndex _ _ _ ha,
    withReg_of_regIndex _ _ _ hb]
  split <;> rfl

/-- With its destination present load-immediate always completes (R98). -/
theorem exec_irmovq_of_regIndex (v : Word) (hb : regIndex rB = some b) :
    exec (.irmovq rB v) s = .next ((s.setReg b v).setPc (s.valP .irmov)) :=
  withReg_of_regIndex _ _ _ hb

/-- With its operands present the store is the write of one quad (R99). -/
theorem exec_rmmovq_of_regIndex (d : Word) (ha : regIndex rA = some a) (hb : regIndex rB = some b) :
    exec (.rmmovq rA rB d) s =
      storingQuad s (effectiveAddress (s.reg b) d) (s.reg a) fun s' => fallThrough s' .rmmov := by
  rw [exec, execRmmovq, withReg_of_regIndex _ _ _ ha, withReg_of_regIndex _ _ _ hb]

theorem exec_rmmovq_of_writeQuad {d : Word} {m : Memory} (ha : regIndex rA = some a) (hb : regIndex rB = some b)
    (hm : s.mem.writeQuad (effectiveAddress (s.reg b) d) (s.reg a) = some m) :
    exec (.rmmovq rA rB d) s = .next ((s.setMem m).setPc (s.valP .rmmov)) :=
  (exec_rmmovq_of_regIndex s d ha hb).trans (storingQuad_of_some _ _ _ _ m hm)

/-- With its operands present the load is the read of one quad (R100). -/
theorem exec_mrmovq_of_regIndex (d : Word) (ha : regIndex rA = some a) (hb : regIndex rB = some b) :
    exec (.mrmovq rA rB d) s =
      withQuad s (effectiveAddress (s.reg b) d) fun t => fallThrough (s.setReg a t) .mrmov := by
  rw [exec, execMrmovq, withReg_of_regIndex _ _ _ ha, withReg_of_regIndex _ _ _ hb]

theorem exec_mrmovq_of_readQuad {d v : Word} (ha : regIndex rA = some a) (hb : regIndex rB = some b)
    (hv : s.readQuad (effectiveAddress (s.reg b) d) = some v) :
    exec (.mrmovq rA rB d) s = .next ((s.setReg a v).setPc (s.valP .mrmov)) :=
  (exec_mrmovq_of_regIndex s d ha hb).trans (withQuad_of_some _ _ _ _ hv)

end

/-! ### The effect of one register write -/

/-- Where one register is written and the program counter moves, the value is there and all else is as before. -/
theorem setReg_setPc_effect {s t : State} {r : RegId} {i : Fin 15} {v pc : Word} (hi : regIndex r = some i)
    (ht : t = (s.setReg i v).setPc pc) :
    t.readReg r = some v ∧ RegsSameBut [r] s t ∧ t.cc = s.cc ∧ t.pc = pc ∧ MemorySame s t ∧ RestSame s t := by
  subst ht
  refine ⟨?_, ((RegsSameBut.refl _ s).setReg hi (.head _) v).setPc pc, rfl, rfl, memorySame_of_mem_eq rfl, rfl, rfl⟩
  rw [State.setPc_readReg, State.setReg_readReg s r r i v hi, if_pos rfl]

/-! ### The rules of the moves -/

/-- The rule that the seven conditional moves share (R90): the predicate is all they differ in. -/
theorem condMoveRule_move (p : Predicate) : CondMoveRule (OpClass.cmov.code ++ p.code) p.move (cond p) := by
  intro rA rB s hA hB
  have hbytes : Encodes [OpClass.cmov.code ++ p.code, rA ++ rB] (p.move rA rB) := by
    have henc := (OpcodeMap.move p ((present_iff rA).2 hA) ((present_iff rB).2 hB)).encodes
    rwa [encode_move] at henc
  refine ⟨hbytes, ?_⟩
  obtain ⟨a, ha⟩ := exists_regIndex rA hA
  obtain ⟨b, hb⟩ := exists_regIndex rB hB
  rw [exec_move_of_regIndex s p ha hb, State.readReg_of_regIndex s rA a ha]
  refine ⟨_, rfl, ?_⟩
  cases cond p s.cc with
  | true => exact setReg_setPc_effect hb rfl
  | false => exact ⟨rfl, .refl _ s, rfl, rfl, memorySame_of_mem_eq rfl, rfl, rfl⟩

/-- Settles O14: each of the seven is the family's rule at its predicate. -/
theorem conditionalMovesCopyWhenTheirPredicateHolds : Obligations.ConditionalMovesCopyWhenTheirPredicateHolds :=
  ⟨condMoveRule_move .always, condMoveRule_move .le, condMoveRule_move .lt, condMoveRule_move .eq,
    condMoveRule_move .ne, condMoveRule_move .ge, condMoveRule_move .gt⟩

/-- Settles O15: load-immediate is one register write. -/
theorem irmovqLoadsItsConstantWhole : Obligations.IrmovqLoadsItsConstantWhole := by
  intro rB v s hB
  obtain ⟨b, hb⟩ := exists_regIndex rB hB
  exact ⟨(OpcodeMap.irmovq v ((present_iff rB).2 hB)).encodes, _, exec_irmovq_of_regIndex s v hb,
    setReg_setPc_effect hb rfl⟩

/-- Settles O16: the store is one quad write, which the image's bound decides. -/
theorem rmmovqStoresAQuadAtBasePlusDisplacement : Obligations.RmmovqStoresAQuadAtBasePlusDisplacement := by
  intro rA rB d s v base hA hB
  obtain ⟨a, ha, rfl⟩ := State.exists_regIndex_of_readReg hA
  obtain ⟨b, hb, rfl⟩ := State.exists_regIndex_of_readReg hB
  have hbytes : Encodes (encode (.rmmovq rA rB d)) (.rmmovq rA rB d) :=
    (OpcodeMap.rmmovq d (present_of_regIndex ha) (present_of_regIndex hb)).encodes
  refine ⟨hbytes, fun hin => ?_, fun hout => ?_⟩
  · obtain ⟨m, hwrite⟩ := s.mem.exists_writeQuad (s.reg a) hin
    exact ⟨(s.setMem m).setPc (s.valP .rmmov), exec_rmmovq_of_writeQuad s ha hb hwrite, effectiveAddress_eq_ofNat _ d,
      holdsQuad_of_writeQuad hwrite, memorySameOutside_of_writeQuad hwrite, .refl _ s, rfl, rfl,
      size_eq_of_writeQuad hwrite, rfl⟩
  · exact (exec_rmmovq_of_regIndex s d ha hb).trans (storingQuad_of_size_le s _ _ hout)

/-- Settles O17: the load is one quad read, which the image's bound decides, and one register write. -/
theorem mrmovqLoadsTheQuadAtBasePlusDisplacement : Obligations.MrmovqLoadsTheQuadAtBasePlusDisplacement := by
  intro rA rB d s base hA hB
  obtain ⟨a, ha⟩ := exists_regIndex rA hA
  obtain ⟨b, hb, rfl⟩ := State.exists_regIndex_of_readReg hB
  have hbytes : Encodes (encode (.mrmovq rA rB d)) (.mrmovq rA rB d) :=
    (OpcodeMap.mrmovq d ((present_iff rA).2 hA) (present_of_regIndex hb)).encodes
  refine ⟨hbytes, fun hin => ?_, fun hout => ?_⟩
  · obtain ⟨v, hread⟩ := s.mem.exists_readQuad hin
    obtain ⟨hvalue, hframe⟩ := setReg_setPc_effect (v := v) (pc := s.valP .mrmov) ha rfl
    exact ⟨_, v, exec_mrmovq_of_readQuad s ha hb hread, effectiveAddress_eq_ofNat _ d, hvalue,
      holdsQuad_of_readQuad hread, hframe⟩
  · exact (exec_mrmovq_of_regIndex s d ha hb).trans (withQuad_of_size_le s _ hout)

end Sys2Proof.Machine
end

section
/-!
PROOF. The arithmetic family: what each one's bytes decode to, its result, its failures and its whole effect, and what
the predicates read from the flags of a result (R101 to R112).
-/

namespace Sys2Proof.Machine

open Sys2Proof Sys2Proof.Safety

/-! ### Flags of a result -/

theorem flagsOf_flags (r : Word) : FlagsOf (flags r) r := ⟨beq_iff_eq, Iff.rfl⟩

/-- ZF of a result says that the signed value is 0 (R101). -/
theorem flags_zf_iff (r : Word) : (flags r).zf = true ↔ r.toInt = 0 := by
  rw [(flagsOf_flags r).1, ← BitVec.toInt_inj]
  rfl

/-- SF of a result says that the signed value is negative: bit 63 is its sign (R101). -/
theorem flags_sf_iff (r : Word) : (flags r).sf = true ↔ r.toInt < 0 := by
  have hmsb : (flags r).sf = r.msb := rfl
  rw [hmsb, BitVec.msb_eq_toInt, decide_eq_true_iff]

/-- Settles O22: what each predicate reads from the two flags, put as signed comparisons with 0. -/
theorem predicatesCompareTheLastResultWithZero : Obligations.PredicatesCompareTheLastResultWithZero := by
  intro r
  have hzero := flags_zf_iff r
  have hneg := flags_sf_iff r
  refine ⟨?_, hneg, hzero, ?_, ?_, ?_⟩
  · simp only [cond, Bool.or_eq_true, hzero, hneg]
    exact le_iff_eq_or_lt.symm
  · simp only [cond, Bool.not_eq_true', ← Bool.not_eq_true, hzero, Ne]
  · simp only [cond, Bool.not_eq_true', ← Bool.not_eq_true, hneg, not_lt]
  · simp only [cond, Bool.and_eq_true, Bool.not_eq_true', ← Bool.not_eq_true, hzero, hneg]
    omega

/-! ### The signed quotient and remainder -/

/-- The division that truncates is `quotient` of R111. -/
theorem isQuotient_tdiv (n d : Int) : IsQuotient n d (n.tdiv d) := by
  refine ⟨Int.natAbs_tdiv n d, ?_⟩
  have hsign := Int.sign_tdiv n d
  split at hsign
  next => exact .inl (Int.sign_eq_zero_iff_zero.1 hsign)
  next => exact .inr hsign

/-- Outside the overflow pair the quotient fits into 64 bits, so encoding it loses nothing (R111, R112). -/
theorem toInt_quotient {b a : Word} (h : ¬(b = int64Min ∧ a = minusOne)) :
    (quotient b.toInt a.toInt).toInt = b.toInt.tdiv a.toInt := by
  have hfits : (b.sdiv a).toInt = b.toInt.tdiv a.toInt :=
    BitVec.toInt_sdiv_of_ne_or_ne b a (not_and_or.1 h)
  rw [quotient, ← hfits, BitVec.ofInt_toInt]

/-- The remainder always fits into 64 bits: it is the truncating remainder, whose magnitude and sign are
known (R111). -/
theorem toInt_remainder_eq_tmod (b a : Word) : (remainder b.toInt a.toInt).toInt = b.toInt.tmod a.toInt := by
  have hfits : b.toInt - b.toInt.tdiv a.toInt * a.toInt = (b.srem a).toInt := by
    rw [BitVec.toInt_srem, Int.tmod_def, Int.mul_comm]
  rw [remainder, hfits, BitVec.ofInt_toInt, BitVec.toInt_srem]

theorem toInt_remainder (b a : Word) :
    (remainder b.toInt a.toInt).toInt = b.toInt - b.toInt.tdiv a.toInt * a.toInt := by
  rw [toInt_remainder_eq_tmod, Int.tmod_def, Int.mul_comm]

theorem natAbs_remainder_lt (b : Word) {a : Word} (ha : a ≠ 0) :
    (remainder b.toInt a.toInt).toInt.natAbs < a.toInt.natAbs := by
  have hpos : 0 < a.toInt.natAbs := Int.natAbs_pos.2 (mt (BitVec.toInt_inj (y := 0)).1 ha)
  rw [toInt_remainder_eq_tmod, Int.natAbs_tmod]
  exact Nat.mod_lt _ hpos

theorem remainder_eq_zero_or_sign_eq (b a : Word) :
    remainder b.toInt a.toInt = 0 ∨ (remainder b.toInt a.toInt).toInt.sign = b.toInt.sign := by
  have hsign := Int.sign_tmod b.toInt a.toInt
  rw [← toInt_remainder_eq_tmod] at hsign
  split at hsign
  next => exact .inl (BitVec.toInt_inj.1 (Int.sign_eq_zero_iff_zero.1 hsign))
  next => exact .inr hsign

/-! ### The cases of a division -/

section

variable (policy : DivOverflowPolicy) {b a : Word}

theorem divideBy_of_ne (ha : a ≠ 0) (h : ¬(b = int64Min ∧ a = minusOne)) :
    divideBy policy b a = .ok (quotient b.toInt a.toInt) := by
  unfold divideBy
  rw [if_neg ha, if_neg h]

theorem moduloBy_of_ne (ha : a ≠ 0) (h : ¬(b = int64Min ∧ a = minusOne)) :
    moduloBy policy b a = .ok (remainder b.toInt a.toInt) := by
  unfold moduloBy
  rw [if_neg ha, if_neg h]

end

/-- Settles O21: the overflow pair is a fixed pair of operands, and each policy fixes what it gives. -/
theorem divisionOverflowFollowsThePolicy : Obligations.DivisionOverflowFollowsThePolicy := by
  unfold Obligations.DivisionOverflowFollowsThePolicy
  decide

/-! ### What an arithmetic instruction answers -/

section

variable {op : AluOp} {rA rB : RegId} {s : State} {a b : Word}

theorem exec_aluInstr (op : AluOp) (rA rB : RegId) (s : State) :
    exec (op.instr rA rB) s = arithmetic op rA rB s := by cases op <;> rfl

/-- The bytes of an arithmetic instruction with present operands decode to it (R82). -/
theorem encodes_aluInstr (op : AluOp) (hA : s.readReg rA = some a) (hB : s.readReg rB = some b) :
    Encodes [OpClass.opq.code ++ op.code, rA ++ rB] (op.instr rA rB) := by
  obtain ⟨i, hi, -⟩ := State.exists_regIndex_of_readReg hA
  obtain ⟨j, hj, -⟩ := State.exists_regIndex_of_readReg hB
  have henc := (OpcodeMap.arithmetic op (present_of_regIndex hi) (present_of_regIndex hj)).encodes
  rwa [encode_aluInstr] at henc

/-- With its operands present an arithmetic instruction fails as its operation does (R113). -/
theorem exec_aluInstr_of_error {f : Fault} (hA : s.readReg rA = some a) (hB : s.readReg rB = some b)
    (hr : aluResult op b a = .error f) : exec (op.instr rA rB) s = .fault f := by
  obtain ⟨i, hi, rfl⟩ := State.exists_regIndex_of_readReg hA
  obtain ⟨j, hj, rfl⟩ := State.exists_regIndex_of_readReg hB
  rw [exec_aluInstr, arithmetic, withReg_of_regIndex _ _ _ hi, withReg_of_regIndex _ _ _ hj, hr]
  rfl

/-- With its operands present and a result, an arithmetic instruction completes, and this is its whole effect (R103). -/
theorem exec_aluInstr_of_ok {r : Word} (hA : s.readReg rA = some a) (hB : s.readReg rB = some b)
    (hr : aluResult op b a = .ok r) :
    ∃ t, exec (op.instr rA rB) s = .next t ∧ t.readReg rB = some r ∧ RegsSameBut [rB] s t ∧ FlagsOf t.cc r ∧
      t.pc = s.pc + 2 ∧ MemorySame s t ∧ RestSame s t := by
  obtain ⟨i, hi, rfl⟩ := State.exists_regIndex_of_readReg hA
  obtain ⟨j, hj, rfl⟩ := State.exists_regIndex_of_readReg hB
  refine ⟨((s.setReg j r).setCc (flags r)).setPc (s.valP .opq), ?_, ?_,
    (((RegsSameBut.refl _ s).setReg hj (.head _) r).setCc _).setPc _, flagsOf_flags r, rfl,
    memorySame_of_mem_eq rfl, rfl, rfl⟩
  · rw [exec_aluInstr, arithmetic, withReg_of_regIndex _ _ _ hi, withReg_of_regIndex _ _ _ hj, hr]
    rfl
  · rw [State.setPc_readReg, State.setCc_readReg, State.setReg_readReg s rB rB j r hj, if_pos rfl]

end

/-! ### The rules of the family -/

/-- The rule that the operations which cannot fail share (R104 to R108): the result is all they differ in. -/
theorem aluRule_aluInstr (op : AluOp) {result : Word → Word → Word → Prop}
    (hop : ∀ b a, ∃ r, aluResult op b a = .ok r ∧ result b a r) :
    AluRule (OpClass.opq.code ++ op.code) op.instr result := by
  intro rA rB s a b hA hB
  obtain ⟨r, hr, hresult⟩ := hop b a
  obtain ⟨t, hexec, heffect⟩ := exec_aluInstr_of_ok hA hB hr
  exact ⟨encodes_aluInstr op hA hB, t, r, hexec, hresult, heffect⟩

/-- The rule that the two divisions share (R109, R110): the two failures, and the result of every other pair. -/
theorem divideRule_aluInstr (op : AluOp) {result : Word → Word → Word → Prop}
    (hzero : ∀ b, aluResult op b 0 = .error .divZero)
    (hoverflow : aluResult op int64Min minusOne = .error .divOverflow)
    (hop : ∀ b a, a ≠ 0 → ¬(b = int64Min ∧ a = minusOne) → ∃ r, aluResult op b a = .ok r ∧ result b a r) :
    DivideRule (OpClass.opq.code ++ op.code) op.instr result := by
  intro rA rB s a b hA hB
  refine ⟨encodes_aluInstr op hA hB, ?_, ?_, ?_⟩
  · rintro rfl
    exact exec_aluInstr_of_error hA hB (hzero b)
  · rintro ⟨rfl, rfl⟩
    exact exec_aluInstr_of_error hA hB hoverflow
  · rintro ⟨ha, hpair⟩
    obtain ⟨r, hr, hresult⟩ := hop b a ha hpair
    obtain ⟨t, hexec, heffect⟩ := exec_aluInstr_of_ok hA hB hr
    exact ⟨t, r, hexec, hresult, heffect⟩

/-- The difference modulo 2^64, with the minuend raised by 2^64 so that the natural subtraction does not stop at 0. -/
theorem toNat_sub_eq (b a : Word) : (b - a).toNat = (2 ^ 64 + b.toNat - a.toNat) % 2 ^ 64 := by
  have ha := a.isLt
  rw [BitVec.toNat_sub]
  omega

/-- Settles O18: each of the five is the family's rule at its operation's result. -/
theorem arithmeticLeavesResultAndFlags : Obligations.ArithmeticLeavesResultAndFlags :=
  ⟨aluRule_aluInstr .add fun b a => ⟨b + a, rfl, BitVec.toNat_add b a⟩,
    aluRule_aluInstr .sub fun b a => ⟨b - a, rfl, toNat_sub_eq b a⟩,
    aluRule_aluInstr .and fun b a => ⟨b &&& a, rfl, fun _ => BitVec.getLsbD_and⟩,
    aluRule_aluInstr .xor fun b a => ⟨b ^^^ a, rfl, fun _ => BitVec.getLsbD_xor⟩,
    aluRule_aluInstr .mul fun b a => ⟨b * a, rfl, BitVec.toNat_mul b a⟩⟩

/-- Settles O19: the truncated quotient fits into 64 bits for every pair that does not fail. -/
theorem divqLeavesTheTruncatedQuotient : Obligations.DivqLeavesTheTruncatedQuotient := by
  refine divideRule_aluInstr .div (fun _ => rfl) rfl fun b a ha hpair => ?_
  refine ⟨quotient b.toInt a.toInt, divideBy_of_ne Config.divOverflowPolicy ha hpair, ?_⟩
  rw [toInt_quotient hpair]
  exact isQuotient_tdiv b.toInt a.toInt

/-- Settles O20: the remainder is the dividend less the truncated quotient times the divisor; its magnitude and its sign
are those of the truncating remainder. -/
theorem modqLeavesTheRemainderOfTheTruncatedQuotient :
    Obligations.ModqLeavesTheRemainderOfTheTruncatedQuotient := by
  refine divideRule_aluInstr .mod (fun _ => rfl) rfl fun b a ha hpair => ?_
  exact ⟨remainder b.toInt a.toInt, moduloBy_of_ne Config.divOverflowPolicy ha hpair,
    ⟨b.toInt.tdiv a.toInt, isQuotient_tdiv b.toInt a.toInt, toInt_remainder b a⟩,
    natAbs_remainder_lt b ha, remainder_eq_zero_or_sign_eq b a⟩

end Sys2Proof.Machine
end

section
/-!
PROOF. Control transfer: what each jump, call and return decodes from, what it answers, and its whole effect; a return
after a call; and a RUN that never stops (R115 to R126, R181).
-/

namespace Sys2Proof

/-! ### The halting status -/

theorem Record.class_eq_halt_of_verdict {i : Record} {c : OpClass} (h : i.verdict c = .validHalt) : c = .halt := by
  unfold Record.verdict at h
  split at h
  · split at h
    next hc => exact hc
    next => cases h
  · cases h

/-- Only bytes that decode to halt have the status VALID_HALT (R62). -/
theorem decode_eq_halt_of_validHalt {pc : Word} {bs : List Byte} (h : (decodeRecord pc bs).2 = .validHalt) :
    decode bs = .ok .halt := by
  cases bs with
  | nil => cases h
  | cons b0 rest =>
    cases hc : OpClass.ofCode (highNibble b0) with
    | none => rw [decodeRecord_of_ofCode_none pc rest hc] at h; cases h
    | some c =>
      have hhalt : c = .halt := by
        rw [decodeRecord_of_ofCode_some pc rest hc] at h
        obtain ⟨-, hd⟩ | ⟨_, -, -, hd⟩ | ⟨_, _, -, -, hd⟩ := decodeClass_cases c _ (b0 :: rest)
        · rw [hd] at h; cases h
        · rw [hd] at h; cases h
        · rw [hd] at h; exact Record.class_eq_halt_of_verdict h
      obtain ⟨hcode, -⟩ := decodeRecord_opcode pc b0 rest
      have hinstr : (decodeRecord pc (b0 :: rest)).1.instr = some .halt := by
        simp only [Record.instr, hcode, hc, hhalt]
      rw [← instrOfDecoded_decodeRecord pc, h]
      simp only [instrOfDecoded, hinstr]

end Sys2Proof

namespace Sys2Proof.Safety

open Sys2Proof.Machine

/-- An exception that reads as before is none. -/
theorem RegsSameBut.of_cons {r : RegId} {rs : List RegId} {s t : State} (h : RegsSameBut (r :: rs) s t)
    (hr : t.readReg r = s.readReg r) : RegsSameBut rs s t := by
  intro q hq
  by_cases hqr : q = r
  · rw [hqr, hr]
  · exact h q (by simp [hqr, hq])

end Sys2Proof.Safety

namespace Sys2Proof.Machine

open Sys2Proof Sys2Proof.Safety

/-! ### The jumps -/

/-- A jump always completes, and writes the program counter alone (R115). -/
theorem exec_jump (p : Predicate) (target : Word) (s : State) :
    exec (p.jump target) s = .next (s.setPc (if cond p s.cc then target else s.valP .jump)) := by
  have hfamily : exec (p.jump target) s = conditionalJump p target s := by cases p <;> rfl
  rw [hfamily, conditionalJump_eq]

/-- The rule that the seven jumps share (R115): the predicate is all they differ in. -/
theorem jumpRule_jump (p : Predicate) : JumpRule (OpClass.jump.code ++ p.code) p.jump (cond p) := by
  intro target s
  have hbytes : Encodes ((OpClass.jump.code ++ p.code) :: bytesOfQuad target) (p.jump target) := by
    have henc := (OpcodeMap.jump (pc := 0) p target).encodes
    rwa [encode_jump] at henc
  exact ⟨hbytes, _, exec_jump p target s, rfl, (RegsSameBut.refl [] s).setPc _, rfl, memorySame_of_mem_eq rfl,
    rfl, rfl⟩

/-- Settles O23: each of the seven is the family's rule at its predicate. -/
theorem jumpsGoToTheirTargetWhenTheirPredicateHolds : Obligations.JumpsGoToTheirTargetWhenTheirPredicateHolds :=
  ⟨jumpRule_jump .always, jumpRule_jump .le, jumpRule_jump .lt, jumpRule_jump .eq, jumpRule_jump .ne,
    jumpRule_jump .ge, jumpRule_jump .gt⟩

/-! ### The stack pointer -/

theorem State.readReg_spReg (s : State) : s.readReg spReg = some s.sp := rfl

theorem State.sp_eq_of_readReg {s : State} {v : Word} (h : s.readReg spReg = some v) : s.sp = v :=
  Option.some.inj h

@[simp] theorem State.setSp_sp (s : State) (v : Word) : (s.setSp v).sp = v := by
  rw [State.sp, State.setSp, State.setReg_reg, if_pos rfl]

@[simp] theorem pushAddress_add_eight (s : State) : pushAddress s + 8 = s.sp :=
  BitVec.sub_add_cancel s.sp 8

/-- The effect that call and push share: a quad below the stack pointer, the stack pointer on it, and a new program
counter (R123, R127). -/
theorem setMem_setSp_setPc_effect {s t : State} {v pc : Word} {m : Memory}
    (hm : s.mem.writeQuad (pushAddress s) v = some m) (ht : t = ((s.setMem m).setSp (pushAddress s)).setPc pc) :
    s.readReg spReg = some (pushAddress s + 8) ∧ HoldsQuad t (pushAddress s) v ∧
      MemorySameOutside (pushAddress s) s t ∧ t.readReg spReg = some (pushAddress s) ∧ RegsSameBut [spReg] s t ∧
      t.cc = s.cc ∧ t.pc = pc ∧ RestSame s t := by
  subst ht
  refine ⟨?_, holdsQuad_of_writeQuad hm, memorySameOutside_of_writeQuad hm, ?_,
    (((RegsSameBut.refl _ s).setMem m).setSp (.head _) _).setPc pc, rfl, rfl, size_eq_of_writeQuad hm, rfl⟩
  · rw [pushAddress_add_eight, State.readReg_spReg]
  · rw [State.setPc_readReg, State.readReg_spReg, State.setSp_sp]

/-! ### Call and return -/

section

variable {s t : State}

theorem exec_call_of_writeQuad {m : Memory} (target : Word)
    (hm : s.mem.writeQuad (pushAddress s) (s.valP .call) = some m) :
    exec (.call target) s = .next (((s.setMem m).setSp (pushAddress s)).setPc target) :=
  storingQuad_of_some _ _ _ _ m hm

theorem exec_ret_of_readQuad {v : Word} (hv : s.readQuad s.sp = some v) :
    exec .ret s = .next ((s.setSp (popAddress s.sp)).setPc v) :=
  withQuad_of_some _ _ _ _ hv

/-- What a return finds after a call that completes: the return address where the stack pointer points, the stack
pointer eight below its old value, and the rest of the registers and the flags as they were (R123). -/
theorem exec_call_next_effect {target : Word} (h : exec (.call target) s = .next t) :
    t.readQuad t.sp = some (s.pc + 9) ∧ popAddress t.sp = s.sp ∧ RegsSameBut [spReg] s t ∧ t.cc = s.cc := by
  obtain ⟨m, hm, ht⟩ := execCall_next target s t h
  obtain ⟨-, -, -, hsp, hregs, hcc, -, -⟩ := setMem_setSp_setPc_effect hm ht
  have hmem : t.mem = m := by rw [ht]; rfl
  rw [State.readQuad, hmem, State.sp_eq_of_readReg hsp]
  exact ⟨Memory.readQuad_of_writeQuad hm, pushAddress_add_eight s, hregs, hcc⟩

end

/-- Settles O24: call is one quad write, which the image's bound decides. -/
theorem callPushesTheFallThroughAddress : Obligations.CallPushesTheFallThroughAddress := by
  intro target s
  refine ⟨(OpcodeMap.call target).encodes, fun hin => ?_, fun hout => ?_⟩
  · obtain ⟨m, hwrite⟩ := s.mem.exists_writeQuad (s.valP .call) hin
    exact ⟨_, exec_call_of_writeQuad target hwrite, setMem_setSp_setPc_effect hwrite rfl⟩
  · exact storingQuad_of_size_le s _ _ hout

/-- Settles O25: return is one quad read, which the image's bound decides, and a write of the stack pointer. -/
theorem retPopsTheProgramCounter : Obligations.RetPopsTheProgramCounter := by
  intro s sp hsp
  obtain rfl := State.sp_eq_of_readReg hsp
  refine ⟨OpcodeMap.ret.encodes, fun hin => ?_, fun hout => ?_⟩
  · obtain ⟨v, hread⟩ := s.mem.exists_readQuad hin
    obtain ⟨hvalue, hregs, hcc, -, hmem, hrest⟩ :=
      setReg_setPc_effect (s := s) (v := popAddress s.sp) (pc := v) regIndex_spReg rfl
    exact ⟨_, exec_ret_of_readQuad hread, holdsQuad_of_readQuad hread, hvalue, hregs, hcc, hmem, hrest⟩
  · exact withQuad_of_size_le s _ hout

/-- Settles O29: the quad that the call pushed is the one that the return pops, and the stack pointer goes back up. -/
theorem returnAfterCallComesBack : Obligations.ReturnAfterCallComesBack := by
  intro target s t hcall
  obtain ⟨hread, hsp, hregs, hcc⟩ := exec_call_next_effect hcall
  refine ⟨_, exec_ret_of_readQuad hread, rfl, ((hregs.setSp (.head _) _).setPc _).of_cons ?_, hcc⟩
  rw [State.setPc_readReg, State.readReg_spReg, State.setSp_sp, hsp, State.readReg_spReg]

/-! ### RUN at a fixed point -/

section

variable {s t : State}

theorem redecode_eq_self (h : CacheCoherent s) : s.redecode = s := by
  rw [State.redecode, ← h, State.setCi_self]

/-- Where the cached instruction is the decode at the program counter, executing it is executing what the bytes there
decode to (R180). -/
theorem executeCached_of_exec_next {i : Instr} (hc : CacheCoherent s) (hd : decode (s.mem.fetchBytes s.pc) = .ok i)
    (he : exec i s = .next t) : executeCached s = (t.redecode, none) := by
  rw [executeCached, hc, executeRecord_decodeHere_of_decode s i hd, he]

/-- RUN goes on after an execution that succeeds exactly where neither a halt nor a breakpoint is next (R152). -/
theorem runStop_none_eq_none_iff : runStop s none = none ↔ s.host.ci.status ≠ .validHalt ∧ s.pc ∉ s.host.bp := by
  simp only [runStop]
  split_ifs with hhalt hbp
  · simp [hhalt]
  · simp [hbp]
  · simp [hhalt, hbp]

theorem runFor_succ_of_runStop_none {f : Option Fault} (n : Nat) (he : executeCached s = (t, f))
    (hstop : runStop t f = none) : runFor (n + 1) s = runFor n t := by
  simp only [runFor, he, hstop]

/-- A state that one execution leaves as it is, and where RUN does not stop, holds RUN for ever (R181). -/
theorem runDiverges_of_executeCached_eq_self (he : executeCached s = (s, none)) (hstop : runStop s none = none) :
    RunDiverges s := by
  intro n
  induction n with
  | zero => rfl
  | succ n ih => rw [runFor_succ_of_runStop_none n he hstop, ih]

end

/-- Settles O48: a taken jump to its own address is a fixed point of the execution, and its status is not VALID_HALT. -/
theorem runAtAJumpToItselfNeverStops : Obligations.RunAtAJumpToItselfNeverStops := by
  intro s hc hd hbp
  have hself : exec (.jmp s.pc) s = .next s := exec_jump .always s.pc s
  have he : executeCached s = (s, none) := by
    rw [executeCached_of_exec_next hc hd hself, redecode_eq_self hc]
  have hhalt : s.host.ci.status ≠ .validHalt := by
    intro h
    rw [hc] at h
    rw [decode_eq_halt_of_validHalt h] at hd
    cases hd
  exact runDiverges_of_executeCached_eq_self he (runStop_none_eq_none_iff.2 ⟨hhalt, hbp⟩)

end Sys2Proof.Machine
end

section
/-!
PROOF. The stack instructions: what push and pop decode from, what they answer, and their whole effect; and a pop after
a push (R127 to R130).
-/

namespace Sys2Proof.Safety

open Sys2Proof.Machine

/-- More exceptions allow no less. -/
theorem RegsSameBut.mono {rs qs : List RegId} {s t : State} (h : RegsSameBut rs s t) (hsub : rs ⊆ qs) :
    RegsSameBut qs s t :=
  fun q hq => h q fun hr => hq (hsub hr)

end Sys2Proof.Safety

namespace Sys2Proof.Machine

open Sys2Proof Sys2Proof.Safety

section

variable {s t : State} {r rA : RegId} {a i : Fin 15}

/-! ### Push -/

/-- With its operand present, push is the write of one quad below the stack pointer (R127). -/
theorem exec_pushq_of_regIndex (s : State) (ha : regIndex rA = some a) :
    exec (.pushq rA) s = pushing s (s.reg a) fun s' => fallThrough s' .push :=
  withReg_of_regIndex _ _ _ ha

theorem exec_pushq_of_writeQuad {m : Memory} (ha : regIndex rA = some a)
    (hm : s.mem.writeQuad (pushAddress s) (s.reg a) = some m) :
    exec (.pushq rA) s = .next (((s.setMem m).setSp (pushAddress s)).setPc (s.valP .push)) :=
  (exec_pushq_of_regIndex s ha).trans (storingQuad_of_some _ _ _ _ m hm)

/-- What a pop finds after a push that completes: the pushed register's old value where the stack pointer points, the
stack pointer eight below its old value, and the rest of the registers and the flags as they were (R127, R129). -/
theorem exec_pushq_next_effect (h : exec (.pushq rA) s = .next t) :
    ∃ v, s.readReg rA = some v ∧ t.readQuad t.sp = some v ∧ popAddress t.sp = s.sp ∧ RegsSameBut [spReg] s t ∧
      t.cc = s.cc := by
  obtain ⟨a, m, ha, hm, ht⟩ := execPushq_next rA s t h
  obtain ⟨-, -, -, hsp, hregs, hcc, -, -⟩ := setMem_setSp_setPc_effect hm ht
  have hmem : t.mem = m := by rw [ht]; rfl
  refine ⟨s.reg a, State.readReg_of_regIndex s rA a ha, ?_, ?_, hregs, hcc⟩
  · rw [State.readQuad, hmem, State.sp_eq_of_readReg hsp]
    exact Memory.readQuad_of_writeQuad hm
  · rw [State.sp_eq_of_readReg hsp]
    exact pushAddress_add_eight s

/-! ### Pop -/

/-- With its operand present, pop is the read of the quad at the stack pointer, then one of two updates (R128, R130). -/
theorem exec_popq_of_regIndex (s : State) (ha : regIndex rA = some a) :
    exec (.popq rA) s = withQuad s s.sp fun v =>
      if a = Config.spIndex then fallThrough (s.setSp (popSpValue Config.popSpResult s.sp v)) .pop
      else fallThrough ((s.setReg a v).setSp (popAddress s.sp)) .pop :=
  withReg_of_regIndex _ _ _ ha

/-- A quad at the stack pointer that leaves the image fails the pop of every register (R128). -/
theorem exec_popq_of_size_le (ha : regIndex rA = some a) (hout : s.mem.size ≤ s.sp.toNat + 7) :
    exec (.popq rA) s = .fault .memReadOob :=
  (exec_popq_of_regIndex s ha).trans (withQuad_of_size_le s _ hout)

/-- Only the stack pointer's identifier names the stack pointer's register (R23, R25). -/
theorem ne_spIndex_of_ne_spReg (ha : regIndex rA = some a) (hne : rA ≠ spReg) : a ≠ Config.spIndex :=
  fun e => hne (regIndex_injective rA spReg a ha (e ▸ regIndex_spReg))

theorem exec_popq_of_readQuad {v : Word} (ha : regIndex rA = some a) (hne : rA ≠ spReg)
    (hv : s.readQuad s.sp = some v) :
    exec (.popq rA) s = .next (((s.setReg a v).setSp (popAddress s.sp)).setPc (s.valP .pop)) := by
  rw [exec_popq_of_regIndex s ha, withQuad_of_some _ _ _ _ hv, if_neg (ne_spIndex_of_ne_spReg ha hne)]
  rfl

theorem exec_popq_spReg_of_readQuad {v : Word} (hv : s.readQuad s.sp = some v) :
    exec (.popq spReg) s = .next ((s.setSp (popSpValue Config.popSpResult s.sp v)).setPc (s.valP .pop)) := by
  rw [exec_popq_of_regIndex s regIndex_spReg, withQuad_of_some _ _ _ _ hv, if_pos rfl]
  rfl

/-- The registers after a write of one other than the stack pointer, then of the stack pointer. -/
theorem readReg_setReg_setSp_setPc {v w pc : Word} (hi : regIndex r = some i) (hne : r ≠ spReg)
    (ht : t = ((s.setReg i v).setSp w).setPc pc) : t.readReg r = some v ∧ t.readReg spReg = some w := by
  subst ht
  constructor
  · rw [State.setPc_readReg, State.setSp, State.setReg_readReg _ _ _ _ _ regIndex_spReg, if_neg hne,
      State.setReg_readReg _ _ _ _ _ hi, if_pos rfl]
  · rw [State.setPc_readReg, State.readReg_spReg, State.setSp_sp]

end

/-! ### The rules of push and pop -/

/-- Settles O26: push is one quad write, which the image's bound decides; the value is read from the state before it. -/
theorem pushqStoresTheRegisterBelowTheStackPointer : Obligations.PushqStoresTheRegisterBelowTheStackPointer := by
  intro rA s v hA
  obtain ⟨a, ha, rfl⟩ := State.exists_regIndex_of_readReg hA
  refine ⟨(OpcodeMap.pushq (present_of_regIndex ha)).encodes, fun hin => ?_, fun hout => ?_⟩
  · obtain ⟨m, hwrite⟩ := s.mem.exists_writeQuad (s.reg a) hin
    exact ⟨_, exec_pushq_of_writeQuad ha hwrite, setMem_setSp_setPc_effect hwrite rfl⟩
  · exact (exec_pushq_of_regIndex s ha).trans (storingQuad_of_size_le s _ _ hout)

/-- Settles O27: pop is one quad read, which the image's bound decides, and two register writes. -/
theorem popqLoadsTheQuadAtTheStackPointer : Obligations.PopqLoadsTheQuadAtTheStackPointer := by
  intro rA s sp hA hsp
  obtain rfl := State.sp_eq_of_readReg hsp
  obtain ⟨a, ha⟩ := exists_regIndex rA hA
  refine ⟨(OpcodeMap.popq ((present_iff rA).2 hA)).encodes, fun ⟨hin, hne⟩ => ?_, exec_popq_of_size_le ha⟩
  obtain ⟨v, hread⟩ := s.mem.exists_readQuad hin
  obtain ⟨hvalue, hnewSp⟩ := readReg_setReg_setSp_setPc (s := s) (v := v) (w := popAddress s.sp)
    (pc := s.valP .pop) ha hne rfl
  exact ⟨_, v, exec_popq_of_readQuad ha hne hread, holdsQuad_of_readQuad hread, hvalue, hnewSp,
    (((RegsSameBut.refl _ s).setReg ha (.head _) v).setSp (by simp) _).setPc _, rfl, rfl, memorySame_of_mem_eq rfl,
    rfl, rfl⟩

/-- Settles O28: pop of the stack pointer is one quad read and one register write, of the value that the constant
chooses. -/
theorem popqOfTheStackPointerLeavesOneOfThreeValues : Obligations.PopqOfTheStackPointerLeavesOneOfThreeValues := by
  intro s sp hsp
  obtain rfl := State.sp_eq_of_readReg hsp
  refine ⟨(OpcodeMap.popq (rA := spReg) rfl).encodes, fun hin => ?_, exec_popq_of_size_le regIndex_spReg⟩
  obtain ⟨v, hread⟩ := s.mem.exists_readQuad hin
  obtain ⟨hvalue, hframe⟩ := setReg_setPc_effect (s := s) (v := popSpValue Config.popSpResult s.sp v)
    (pc := s.valP .pop) regIndex_spReg rfl
  exact ⟨_, v, exec_popq_spReg_of_readQuad hread, holdsQuad_of_readQuad hread,
    fun hmem => hvalue.trans (by rw [hmem, popSpValue]),
    fun hplus => hvalue.trans (by rw [hplus, popSpValue]),
    fun hold => hvalue.trans (by rw [hold, popSpValue]), hframe⟩

/-- Settles O30: the quad that the push stored is the one that the pop loads, and the stack pointer goes back up. -/
theorem popAfterPushGivesThePushedValue : Obligations.PopAfterPushGivesThePushedValue := by
  intro rA rB s t hpush hB hne
  obtain ⟨v, hA, hread, hsp, hregs, hcc⟩ := exec_pushq_next_effect hpush
  obtain ⟨b, hb⟩ := exists_regIndex rB hB
  obtain ⟨hvalue, hnewSp⟩ := readReg_setReg_setSp_setPc (s := t) (v := v) (w := popAddress t.sp)
    (pc := t.valP .pop) hb hne rfl
  have hbut : RegsSameBut [spReg, rB] s t := hregs.mono (by simp)
  refine ⟨_, exec_popq_of_readQuad hb hne hread, hvalue.trans hA.symm,
    (((hbut.setReg hb (by simp) v).setSp (.head _) _).setPc _).of_cons ?_, hcc⟩
  rw [hnewSp, hsp, State.readReg_spReg]

end Sys2Proof.Machine
end

section
/-!
PROOF. Halt, no-op and the records that stand for no instruction: how a class of one byte decodes, that a step at a halt
is a fixed point, and that what did not decode does not execute (R131 to R134).
-/

namespace Sys2Proof

/-! ### Classes of one byte -/

/-- A class with neither register byte nor constant has one legal function code, 0 (R72, R73). -/
theorem Record.legal_of_oneByteClass {i : Record} {c : OpClass} (hcode : i.icode = c.code)
    (hr : c.hasRegByte = false) (hc : c.hasConst = false) : i.legal = (i.ifun == 0) := by
  simp only [Record.legal, hcode, OpClass.ofCode_code]
  cases c with
  | halt | nop | ret => rfl
  | jump | call => cases hc
  | _ => cases hr

/-- The status of a byte whose class has neither register byte nor constant: nothing after it is read, and it is legal
exactly where it is that class's code followed by 0 (R62, R73, R77). -/
theorem decodeRecord_status_of_oneByteClass (pc : Word) (c : OpClass) {b0 : Byte} (rest : List Byte)
    (hb : highNibble b0 = c.code) (hr : c.hasRegByte = false) (hc : c.hasConst = false) :
    (decodeRecord pc (b0 :: rest)).2 =
      (if b0 = c.code ++ (0 : Nibble) then (if c = .halt then .validHalt else .validContinue) else .invalid) := by
  obtain ⟨f, rfl⟩ : ∃ f, b0 = c.code ++ f := ⟨lowNibble b0, by rw [← hb, highNibble_append_lowNibble]⟩
  have hfun : c.code ++ f = c.code ++ (0 : Nibble) ↔ f = 0 :=
    ⟨fun h => by simpa only [lowNibble_append] using congrArg lowNibble h, congrArg (c.code ++ ·)⟩
  have hdecode := decodeRecord_encodeF1 pc c f rest hr hc
  rw [encodeF1, List.singleton_append] at hdecode
  simp only [hdecode, Record.verdict]
  rw [Record.legal_of_oneByteClass rfl hr hc]
  simp only [beq_iff_eq, hfun]

theorem highNibble_eq_of_div_eq {b : Byte} {n : Nibble} (h : b.toNat / 16 = n.toNat) : highNibble b = n := by
  rw [highNibble_eq_ofNat, h, BitVec.ofNat_toNat, BitVec.setWidth_eq]

/-! ### Decodes that yield no instruction -/

theorem exists_instrOfDecoded_error (i : Record) {st : Status} (h : st = .invalid ∨ st = .tooShort) :
    ∃ e, instrOfDecoded i st = .error e := by
  obtain rfl | rfl := h
  · exact ⟨.invalid, rfl⟩
  · exact ⟨.tooShort, rfl⟩

end Sys2Proof

namespace Sys2Proof.Machine

open Sys2Proof Sys2Proof.Safety

/-! ### Halt -/

theorem exec_halt (s : State) : exec .halt s = .next s := rfl

/-- An instruction that changes nothing makes the step a fixed point where the cached instruction is already the decode
at the program counter: the re-decode finds the same record (R34, R131). -/
theorem step_eq_self_of_exec_eq_self {s : State} {i : Instr} (hc : CacheCoherent s)
    (hd : decode (s.mem.fetchBytes s.pc) = .ok i) (he : exec i s = .next s) : step s = .next s := by
  have hrun : executeRecord s.decodeHere s = .next s := (executeRecord_decodeHere_of_decode s i hd).trans he
  rw [step_of_executeRecord_next s s hrun, redecode_eq_self hc]

theorem decode_eq_halt_of_halted {s : State} (h : Halted s) : decode (s.mem.fetchBytes s.pc) = .ok .halt :=
  decode_eq_halt_of_validHalt h

/-- Settles O32: halt is the instruction of a VALID_HALT record, and it answers the state it is given. -/
theorem haltChangesNothing : Obligations.HaltChangesNothing := by
  refine ⟨exec_halt, fun pc b0 rest hb => ?_, fun s hhalted hc => ?_⟩
  · exact decodeRecord_status_of_oneByteClass pc .halt rest (highNibble_eq_of_div_eq hb) rfl rfl
  · exact step_eq_self_of_exec_eq_self hc (decode_eq_halt_of_halted hhalted) (exec_halt s)

/-! ### No-op -/

theorem exec_nop (s : State) : exec .nop s = .next (s.setPc (s.pc + 1)) := rfl

/-- Settles O33: no-op writes the program counter alone, and its class has one byte. -/
theorem nopOnlyAdvancesTheCounter : Obligations.NopOnlyAdvancesTheCounter := by
  refine ⟨fun s => ?_, fun pc b0 rest hb => ?_⟩
  · exact ⟨_, exec_nop s, s.setPc_pc _, (RegsSameBut.refl [] s).setPc _, s.setPc_cc _,
      memorySame_of_mem_eq (s.setPc_mem _), rfl, s.setPc_host _⟩
  · exact decodeRecord_status_of_oneByteClass pc .nop rest (highNibble_eq_of_div_eq hb) rfl rfl

/-! ### What did not decode -/

/-- A record that stands for no instruction fails, marked invalid or not (R133, R134). -/
theorem executeRecord_of_error {c : CachedInstr} {e : DecodeFailure} (s : State)
    (h : instrOfDecoded c.record c.status = .error e) : executeRecord c s = .fault .notExecutable := by
  unfold executeRecord
  split
  · rfl
  · rw [h]; rfl

/-- Settles O12: neither status yields an instruction, and the step executes the record decoded at the program
counter. -/
theorem undecodableRecordsFailToExecute : Obligations.UndecodableRecordsFailToExecute := by
  refine ⟨fun c s hstatus => ?_, fun s e hdecode => ?_⟩
  · obtain ⟨e, he⟩ := exists_instrOfDecoded_error c.record hstatus
    exact executeRecord_of_error s he
  · have herror := (instrOfDecoded_decodeHere s).trans hdecode
    exact step_of_executeRecord_fault s .notExecutable (executeRecord_of_error s herror)

end Sys2Proof.Machine
end

section
/-!
PROOF. The host interface: what the execution of the cached instruction can do, what each command and each line of input
keeps, and the breakpoint set (R34, R35, R150 to R159).
-/

namespace Sys2Proof.Machine

open Sys2Proof Sys2Proof.Safety

/-! ### Executing the cached instruction -/

theorem executeRecord_ne_refused (c : CachedInstr) (s : State) (e : Refusal) : executeRecord c s ≠ .refused e := by
  unfold executeRecord
  split
  next => simp [raise]
  next =>
    split
    next i _ => exact exec_ne_refused i s e
    next => simp [raise]

/-- Everything the execution of the cached instruction can do (R151): it succeeds, or it fails and the mark it sets is
gone again with the re-decode. -/
theorem executeCached_cases (s : State) :
    (∃ t, executeRecord s.host.ci s = .next t ∧ executeCached s = (t.redecode, none)) ∨
      ∃ f, executeRecord s.host.ci s = .fault f ∧ executeCached s = (s.redecode, some f) := by
  cases h : executeRecord s.host.ci s with
  | next t => exact .inl ⟨t, rfl, by rw [executeCached, h]⟩
  | fault f => exact .inr ⟨f, rfl, by rw [executeCached, h]; rfl⟩
  | refused e => exact absurd h (executeRecord_ne_refused _ s e)

/-- The execution of the cached instruction leaves the re-decode of a state that some instruction leads to: a failure
leaves the state where it was, as `halt` does. -/
theorem exists_execEffect_executeCached (s : State) :
    ∃ i t, ExecEffect s i t ∧ (executeCached s).1 = t.redecode := by
  obtain ⟨t, hnext, he⟩ | ⟨f, -, he⟩ := executeCached_cases s
  · obtain ⟨-, i, -, hexec⟩ := executeRecord_next _ _ _ hnext
    exact ⟨i, t, exec_effect hexec, by rw [he]⟩
  · exact ⟨.halt, s, .halt, by rw [he]⟩

theorem cacheCoherent_executeCached (s : State) : CacheCoherent (executeCached s).1 := by
  obtain ⟨_, t, -, he⟩ := exists_execEffect_executeCached s
  exact he ▸ cacheCoherent_redecode t

theorem inv_executeCached {s : State} (hs : Inv s) : Inv (executeCached s).1 := by
  obtain ⟨_, t, heffect, he⟩ := exists_execEffect_executeCached s
  exact he ▸ heffect.inv_redecode hs

/-- Settles O45: a failure leaves only the re-decode of the state before it. -/
theorem failedExecutionLeavesTheMachineState : Obligations.FailedExecutionLeavesTheMachineState := by
  intro s f hf
  obtain ⟨t, -, he⟩ | ⟨g, -, he⟩ := executeCached_cases s
  · rw [he] at hf
    cases hf
  · rw [he]
    exact ⟨⟨rfl, rfl, rfl, rfl⟩, cacheCoherent_redecode s, rfl⟩

/-! ### What every execution keeps, STEP, RUN and NEXT keep -/

section

variable {P : State → Prop} {s : State}

theorem runFor_keeps (hexec : ∀ s, P s → P (executeCached s).1) (n : Nat) (hs : P s) : P (runFor n s).1 := by
  induction n generalizing s with
  | zero => exact hs
  | succ n ih =>
    unfold runFor
    split
    · exact hexec s hs
    · exact ih (hexec s hs)

theorem nextFor_keeps (hexec : ∀ s, P s → P (executeCached s).1) (sp0 : Word) (n : Nat) (hs : P s) :
    P (nextFor sp0 n s).1 := by
  induction n generalizing s with
  | zero => exact hs
  | succ n ih =>
    unfold nextFor
    split
    · exact hexec s hs
    · exact ih (hexec s hs)

theorem commandNext_keeps (hexec : ∀ s, P s → P (executeCached s).1) (n : Nat) (hs : P s) :
    P (commandNext n s).1 := by
  unfold commandNext
  split
  · exact nextFor_keeps hexec s.sp n hs
  · exact hexec s hs

end

/-! ### The breakpoint set -/

section

variable {a b : Word} {bp : List Word}

theorem mem_addBreakpoint : b ∈ addBreakpoint a bp ↔ b = a ∨ b ∈ bp := by
  induction bp with
  | nil => simp [addBreakpoint]
  | cons c rest ih =>
    unfold addBreakpoint
    split_ifs with hlt heq
    · exact List.mem_cons
    · simp [heq]
    · simp only [List.mem_cons, ih, or_left_comm]

theorem mem_removeBreakpoint : b ∈ removeBreakpoint a bp ↔ b ≠ a ∧ b ∈ bp := by
  simp [removeBreakpoint, and_comm]

/-- The first place where the address fits is the place where it then stands, on any list. -/
theorem addBreakpoint_addBreakpoint (a : Word) (bp : List Word) :
    addBreakpoint a (addBreakpoint a bp) = addBreakpoint a bp := by
  induction bp with
  | nil => simp [addBreakpoint]
  | cons c rest ih =>
    by_cases hlt : a.toNat < c.toNat
    · simp [addBreakpoint, hlt]
    · by_cases heq : a = c
      · simp [addBreakpoint, heq]
      · simp [addBreakpoint, hlt, heq, ih]

theorem removeBreakpoint_eq_self (h : a ∉ bp) : removeBreakpoint a bp = bp :=
  List.filter_eq_self.2 fun _ hb => bne_iff_ne.2 fun e => h (e ▸ hb)

theorem removeBreakpoint_removeBreakpoint (a : Word) (bp : List Word) :
    removeBreakpoint a (removeBreakpoint a bp) = removeBreakpoint a bp :=
  removeBreakpoint_eq_self fun h => (mem_removeBreakpoint.1 h).1 rfl

/-- An added address that was not there is the only one that its removal takes out. -/
theorem removeBreakpoint_addBreakpoint (h : a ∉ bp) : removeBreakpoint a (addBreakpoint a bp) = bp := by
  induction bp with
  | nil => simp [addBreakpoint, removeBreakpoint]
  | cons c rest ih =>
    obtain ⟨hne, hrest⟩ : a ≠ c ∧ a ∉ rest := by simpa using h
    unfold addBreakpoint
    split_ifs with hlt
    · rw [removeBreakpoint, List.filter_cons_of_neg (by simp)]
      exact removeBreakpoint_eq_self h
    · rw [removeBreakpoint, List.filter_cons_of_pos (by simp [Ne.symm hne])]
      exact congrArg (c :: ·) (ih hrest)

theorem pairwise_addBreakpoint (h : bp.Pairwise fun b c => b.toNat < c.toNat) :
    (addBreakpoint a bp).Pairwise fun b c => b.toNat < c.toNat := by
  induction bp with
  | nil => exact List.pairwise_singleton _ a
  | cons c rest ih =>
    obtain ⟨hc, hrest⟩ := List.pairwise_cons.1 h
    unfold addBreakpoint
    split_ifs with hlt heq
    · refine List.pairwise_cons.2 ⟨fun b hb => ?_, h⟩
      obtain rfl | hb := List.mem_cons.1 hb
      · exact hlt
      · exact hlt.trans (hc b hb)
    · exact h
    · refine List.pairwise_cons.2 ⟨fun b hb => ?_, ih hrest⟩
      obtain rfl | hb := mem_addBreakpoint.1 hb
      · exact lt_of_le_of_ne (not_lt.1 hlt) fun e => heq (BitVec.eq_of_toNat_eq e.symm)
      · exact hc b hb

end

theorem State.setBp_self (s : State) : s.setBp s.host.bp = s := rfl

theorem State.setBp_setBp (s : State) (bp bp' : List Word) : (s.setBp bp).setBp bp' = s.setBp bp' := rfl

/-- Settles O53: the two commands are the two list operations on the breakpoint set, and touch nothing else. -/
theorem breakAndDeleteChangeOneAddress : Obligations.BreakAndDeleteChangeOneAddress := by
  intro a s
  refine ⟨fun b => mem_addBreakpoint, fun b => mem_removeBreakpoint, ?_, ?_, fun habsent => ⟨?_, ?_⟩⟩
  · exact congrArg s.setBp (addBreakpoint_addBreakpoint a s.host.bp)
  · exact congrArg s.setBp (removeBreakpoint_removeBreakpoint a s.host.bp)
  · exact congrArg s.setBp (removeBreakpoint_eq_self habsent)
  · exact congrArg s.setBp (removeBreakpoint_addBreakpoint habsent)

/-! ### The invariant -/

section

variable {s : State}

/-- The invariant asks of the host's state only its cached instruction and its breakpoint set. -/
theorem inv_setHost (hs : Inv s) {h : HostState} (hci : h.ci = s.host.ci)
    (hbp : h.bp.Pairwise fun a b => a.toNat < b.toNat) : Inv (s.setHost h) where
  memory := hs.memory
  flags := hs.flags
  breakpoints := hbp
  cache := hci.trans hs.cache

/-- A jump of the host to any address, checked or not (R154), keeps the invariant because it decodes there. -/
theorem inv_setPc_redecode (hs : Inv s) (a : Word) : Inv (s.setPc a).redecode where
  memory := hs.memory
  flags := hs.flags
  breakpoints := hs.breakpoints
  cache := cacheCoherent_redecode _

theorem inv_endSession (hs : Inv s) : Inv (endSession s).1 := inv_setHost hs rfl List.Pairwise.nil

theorem inv_runCommand (n : Nat) (c : Command) (hs : Inv s) : Inv (runCommand n c s).1 := by
  cases c with
  | step => exact inv_executeCached hs
  | run => exact runFor_keeps (fun _ => inv_executeCached) n hs
  | next => exact commandNext_keeps (fun _ => inv_executeCached) n hs
  | jump a => exact inv_setPc_redecode hs a
  | setBreak a => exact inv_setHost hs rfl (pairwise_addBreakpoint hs.breakpoints)
  | deleteBreak a => exact inv_setHost hs rfl (hs.breakpoints.filter _)
  | examine | registers => exact hs
  | quit => exact inv_endSession hs

/-! ### One line of input -/

theorem hostInput_of_ended (n : Nat) (line : Input) (h : s.host.ended = true) : hostInput n line s = (s, .ended) :=
  if_pos h

theorem hostInput_command (n : Nat) (c : Command) (h : s.host.ended = false) :
    hostInput n (.command c) s = runCommand n c (s.setPrevious c) := by
  simp only [hostInput, h, Bool.false_eq_true, if_false]

theorem hostInput_endOfInput (n : Nat) (h : s.host.ended = false) : hostInput n .endOfInput s = endSession s := by
  simp only [hostInput, h, Bool.false_eq_true, if_false]

theorem hostInput_emptyLine {c : Command} (n : Nat) (h : s.host.ended = false) (hc : s.host.previous = some c) :
    hostInput n .emptyLine s = runCommand n c s := by
  simp only [hostInput, h, hc, Bool.false_eq_true, if_false]

/-- Everything a line of input can do to the state (R150, R158, R159). -/
theorem hostInput_cases (n : Nat) (line : Input) (s : State) :
    (hostInput n line s).1 = s ∨
      (line = .endOfInput ∧ hostInput n line s = endSession s) ∨
      (∃ c, line = .command c ∧ hostInput n line s = runCommand n c (s.setPrevious c)) ∨
      ∃ c, line = .emptyLine ∧ hostInput n line s = runCommand n c s := by
  cases hended : s.host.ended with
  | true => exact .inl (by rw [hostInput_of_ended n line hended])
  | false =>
    cases line with
    | command c => exact .inr (.inr (.inl ⟨c, rfl, hostInput_command n c hended⟩))
    | endOfInput => exact .inr (.inl ⟨rfl, hostInput_endOfInput n hended⟩)
    | emptyLine =>
      cases hprevious : s.host.previous with
      | none => exact .inl (by simp only [hostInput, hended, hprevious, Bool.false_eq_true, if_false])
      | some c => exact .inr (.inr (.inr ⟨c, rfl, hostInput_emptyLine n hended hprevious⟩))
    | malformed | overLength => exact .inl (by simp only [hostInput, hended, Bool.false_eq_true, if_false])

end

/-- Settles O40: a line either leaves the state, ends the session, or runs one command. -/
theorem everyHostInputKeepsTheInvariant : Obligations.EveryHostInputKeepsTheInvariant := by
  intro n line s hs
  obtain h | ⟨-, h⟩ | ⟨c, -, h⟩ | ⟨c, -, h⟩ := hostInput_cases n line s
  · rwa [h]
  · rw [h]
    exact inv_endSession hs
  · rw [h]
    exact inv_runCommand n c (inv_setHost hs rfl hs.breakpoints)
  · rw [h]
    exact inv_runCommand n c hs

/-! ### Commands that execute nothing -/

/-- Settles O50: a jump of the host writes the program counter and re-decodes. -/
theorem jumpCommandSetsTheCounterAndDecodes : Obligations.JumpCommandSetsTheCounterAndDecodes := by
  intro a s t r h
  obtain ⟨rfl, -⟩ := Prod.mk.inj h
  exact ⟨rfl, cacheCoherent_redecode _, rfl, rfl, rfl, rfl⟩

/-- Settles O52: EXAMINE reports what the quad read answers, which the image's bound decides. -/
theorem examineReadsAQuadAndChangesNothing : Obligations.ExamineReadsAQuadAndChangesNothing := by
  intro a s
  refine ⟨rfl, fun hout => ?_, fun hin => ?_⟩
  · exact congrArg Report.quad ((s.mem.readQuad_eq_none a).2 hout)
  · obtain ⟨v, hread⟩ := s.mem.exists_readQuad hin
    exact ⟨v, congrArg Report.quad hread, holdsQuad_of_readQuad hread⟩

theorem machineSame_setHost (s : State) (h : HostState) : MachineSame s (s.setHost h) := ⟨rfl, rfl, rfl, rfl⟩

/-- Settles O51: of the commands, those that are not excluded write the host's state alone. -/
theorem onlyExecutionAndJumpTouchTheMachine : Obligations.OnlyExecutionAndJumpTouchTheMachine := by
  intro n s line hempty hstep hrun hnext hjump
  obtain h | ⟨-, h⟩ | ⟨c, rfl, h⟩ | ⟨c, hline, -⟩ := hostInput_cases n line s
  · rw [h]
    exact machineSame_setHost s s.host
  · rw [h]
    exact machineSame_setHost s _
  · rw [h]
    cases c with
    | step => exact absurd rfl hstep
    | run => exact absurd rfl hrun
    | next => exact absurd rfl hnext
    | jump a => exact absurd rfl (hjump a)
    | _ => exact machineSame_setHost s _
  · exact absurd hline hempty

/-! ### The previous command -/

theorem executeCached_previous (s : State) : (executeCached s).1.host.previous = s.host.previous := by
  obtain ⟨_, t, heffect, he⟩ := exists_execEffect_executeCached s
  have hprevious : t.host.previous = s.host.previous := by rw [heffect.host_eq]
  exact he ▸ hprevious

/-- No command changes which command an empty line repeats: the line that gave it has done so before (R158). -/
theorem runCommand_previous (n : Nat) (c : Command) (s : State) :
    (runCommand n c s).1.host.previous = s.host.previous := by
  have hexec (t : State) (h : t.host.previous = s.host.previous) :
      (executeCached t).1.host.previous = s.host.previous := (executeCached_previous t).trans h
  cases c with
  | step => exact executeCached_previous s
  | run => exact runFor_keeps hexec n rfl
  | next => exact commandNext_keeps hexec n rfl
  | _ => rfl

@[simp] theorem State.setPrevious_previous (s : State) (c : Command) :
    (s.setPrevious c).host.previous = some c := rfl

theorem State.setPrevious_eq_self {s : State} {c : Command} (h : s.host.previous = some c) : s.setPrevious c = s := by
  rw [State.setPrevious, ← h]
  rfl

/-- Settles O54: the command that the line gave is the previous one after it, so that giving it again changes nothing
before it runs; after the end of the session neither line does anything. -/
theorem emptyLineRepeatsThePreviousCommand : Obligations.EmptyLineRepeatsThePreviousCommand := by
  intro n k c s t r hgoesOn h
  rw [hostInput_command n c hgoesOn] at h
  have hprevious : t.host.previous = some c := by
    have hkept := runCommand_previous n c (s.setPrevious c)
    rwa [h, State.setPrevious_previous] at hkept
  cases hended : t.host.ended with
  | true => rw [hostInput_of_ended k _ hended, hostInput_of_ended k _ hended]
  | false =>
    rw [hostInput_emptyLine k hended hprevious, hostInput_command k c hended,
      State.setPrevious_eq_self hprevious]

end Sys2Proof.Machine
end

section
/-!
PROOF. RUN and NEXT as repeated executions of the cached instruction: what a stop of each says about the machine's steps
(R152, R153, R166).
-/

namespace Sys2Proof.Safety

open Sys2Proof.Machine

/-! ### Sequences of steps -/

section

variable {k : Nat} {s t u : State}

theorem stepsTo_zero : StepsTo 0 s s := rfl

/-- A step that succeeds, then `k` more. -/
theorem stepsTo_succ_of_step (h : step s = .next u) : StepsTo (k + 1) s t ↔ StepsTo k u t := by
  have hcore : Sys2Proof.core.step s = .next u := h
  simp only [StepsTo, Host.Core.run, hcore]

theorem exists_step_of_stepsTo_succ (h : StepsTo (k + 1) s t) : ∃ u, step s = .next u := by
  simp only [StepsTo, Host.Core.run] at h
  split at h
  next u hu => exact ⟨u, hu⟩
  next => cases h
  next => cases h

/-- `k` steps, then one more. -/
theorem StepsTo.snoc (hk : StepsTo k s t) (h : step t = .next u) : StepsTo (k + 1) s u := by
  induction k generalizing s with
  | zero =>
    cases hk
    exact (stepsTo_succ_of_step h).2 stepsTo_zero
  | succ k ih =>
    obtain ⟨v, hv⟩ := exists_step_of_stepsTo_succ hk
    exact (stepsTo_succ_of_step hv).2 (ih ((stepsTo_succ_of_step hv).1 hk))

end

end Sys2Proof.Safety

namespace Sys2Proof.Machine

open Sys2Proof Sys2Proof.Safety

section

variable {s t : State} {f : Fault}

/-! ### The execution of the cached instruction as a step -/

/-- Where the cached instruction is the decode at the program counter, its success is a step of the machine (R180). -/
theorem step_of_executeCached_none (hc : CacheCoherent s) (h : executeCached s = (t, none)) : step s = .next t := by
  obtain ⟨u, hu, he⟩ | ⟨g, -, he⟩ := executeCached_cases s
  · rw [h] at he
    cases he
    exact step_of_executeRecord_next s u (hc ▸ hu)
  · rw [h] at he
    cases he

/-- There its failure is the step's, and the re-decode changes nothing (R144, R180). -/
theorem step_of_executeCached_some (hc : CacheCoherent s) (h : executeCached s = (t, some f)) :
    t = s ∧ step s = .fault f := by
  obtain ⟨u, -, he⟩ | ⟨g, hg, he⟩ := executeCached_cases s
  · rw [h] at he
    cases he
  · rw [h, redecode_eq_self hc] at he
    cases he
    exact ⟨rfl, step_of_executeRecord_fault s f (hc ▸ hg)⟩

/-! ### RUN -/

theorem failure_eq_none_of_runStop_eq_none {f : Option Fault} (h : runStop s f = none) : f = none := by
  cases f with
  | none => rfl
  | some f => cases h

/-- RUN stops right after some execution, before which it has made steps of the machine (R152). -/
theorem runFor_eq_some {n : Nat} {why : StopReason} (hc : CacheCoherent s) (h : runFor n s = (t, some why)) :
    ∃ k u f, k < n ∧ StepsTo k s u ∧ CacheCoherent u ∧ executeCached u = (t, f) ∧ runStop t f = some why := by
  induction n generalizing s with
  | zero => cases h
  | succ n ih =>
    unfold runFor at h
    split at h
    next w hw =>
      cases h
      exact ⟨0, s, _, n.succ_pos, stepsTo_zero, hc, rfl, hw⟩
    next hgoesOn =>
      have hstep : step s = .next (executeCached s).1 :=
        step_of_executeCached_none hc (Prod.ext rfl (failure_eq_none_of_runStop_eq_none hgoesOn))
      obtain ⟨k, u, f, hk, hsteps, hrest⟩ := ih (cacheCoherent_executeCached s) h
      exact ⟨k + 1, u, f, Nat.succ_lt_succ hk, (stepsTo_succ_of_step hstep).2 hsteps, hrest⟩

/-- The reasons for which RUN stops after an execution that succeeds (R152). -/
theorem runStop_none_eq_some {why : StopReason} (h : runStop s none = some why) :
    (why = .halt ∧ s.host.ci.status = .validHalt) ∨ (why = .breakpoint ∧ s.pc ∈ s.host.bp) := by
  simp only [runStop] at h
  split_ifs at h with hhalt hbp
  · cases h
    exact .inl ⟨rfl, hhalt⟩
  · cases h
    exact .inr ⟨rfl, hbp⟩

end

/-- Settles O47: the execution that RUN stops after is one more step, or the failure of one. -/
theorem runIsTheRepeatedStep : Obligations.RunIsTheRepeatedStep := by
  intro n s t why hc h
  obtain ⟨k, u, f, hk, hsteps, hcu, hexec, hstop⟩ := runFor_eq_some hc h
  cases f with
  | some f =>
    obtain ⟨rfl, hfault⟩ := step_of_executeCached_some hcu hexec
    cases hstop
    exact .inr (.inr ⟨f, k, rfl, hk, hsteps, hfault⟩)
  | none =>
    have hmore : StepsTo (k + 1) s t := hsteps.snoc (step_of_executeCached_none hcu hexec)
    have hct : CacheCoherent t := by simpa only [hexec] using cacheCoherent_executeCached u
    obtain ⟨hwhy, hhalt⟩ | ⟨hwhy, hbp⟩ := runStop_none_eq_some hstop
    · exact .inl ⟨hwhy, k + 1, k.succ_pos, hk, hmore, by rwa [Halted, ← hct]⟩
    · exact .inr (.inl ⟨hwhy, k + 1, k.succ_pos, hk, hmore, hbp⟩)

/-! ### NEXT -/

section

variable {s t : State}

/-- Only the stack pointer's own check gives RETURNED (R153). -/
theorem sp_eq_of_nextStop_returned {sp0 : Word} {f : Option Fault} (h : nextStop sp0 s f = some .returned) :
    s.sp = sp0 := by
  cases f with
  | some f => cases h
  | none =>
    simp only [nextStop] at h
    split at h
    next hsp => exact hsp
    next =>
      obtain ⟨hwhy, -⟩ | ⟨hwhy, -⟩ := runStop_none_eq_some h
      · cases hwhy
      · cases hwhy

theorem sp_eq_of_nextFor_returned {sp0 : Word} {n : Nat} (h : nextFor sp0 n s = (t, some .returned)) : t.sp = sp0 := by
  induction n generalizing s with
  | zero => cases h
  | succ n ih =>
    unfold nextFor at h
    split at h
    next hstop =>
      cases h
      exact sp_eq_of_nextStop_returned hstop
    next => exact ih h

theorem eq_some_of_stopReport {why : StopReason} {r : Option StopReason} (h : stopReport r = .stopped why) :
    r = some why := by
  cases r with
  | some w => cases h; rfl
  | none => cases h

end

/-- Settles O49: NEXT over a call is `nextFor` with the stack pointer of before, and else it is STEP by definition. -/
theorem nextReturnsWithTheStackPointerOfTheCall : Obligations.NextReturnsWithTheStackPointerOfTheCall := by
  refine ⟨fun n s t hcall h => ?_, fun n s hcall => ?_⟩
  · rw [commandNext, if_pos hcall] at h
    obtain ⟨rfl, hreport⟩ := Prod.mk.inj h
    exact sp_eq_of_nextFor_returned (Prod.ext rfl (eq_some_of_stopReport hreport))
  · rw [commandNext, hcall]
    rfl

end Sys2Proof.Machine
end

section
/-!
PROOF. Which failures an instruction can have: each failure comes from one shared operation, the quad read, the quad
write or the division (R142).
-/

namespace Sys2Proof.Machine

open Sys2Proof Sys2Proof.Safety

section

variable {s : State} {f : Fault}

/-! ### The failures of the shared operations -/

/-- Where the rest of the instruction completes, only the quad read can fail (R43). -/
theorem eq_memReadOob_of_withQuad_fault {a : Word} {k : Word → Outcome} (hk : ∀ v, k v ≠ .fault f)
    (h : withQuad s a k = .fault f) : f = .memReadOob := by
  obtain ⟨-, hf⟩ | ⟨v, -, hv⟩ := withQuad_fault s a k f h
  · exact hf
  · exact absurd hv (hk v)

/-- Where the rest of the instruction completes, only the quad write can fail (R44). -/
theorem eq_memWriteOob_of_storingQuad_fault {a v : Word} {k : State → Outcome} (hk : ∀ t, k t ≠ .fault f)
    (h : storingQuad s a v k = .fault f) : f = .memWriteOob := by
  obtain ⟨-, hf⟩ | ⟨m, -, hm⟩ := storingQuad_fault s a v k f h
  · exact hf
  · exact absurd hm (hk _)

theorem fallThrough_ne_fault (s : State) (c : OpClass) (f : Fault) : fallThrough s c ≠ .fault f := nofun

/-- Only the two divisions have operands without a result (R109, R110, R112). -/
theorem aluResult_eq_error {op : AluOp} {a b : Word} (h : aluResult op b a = .error f) :
    (f = .divZero ∨ f = .divOverflow) ∧ (op = .div ∨ op = .mod) := by
  cases op with
  | div =>
    simp only [aluResult, divideBy, Config.divOverflowPolicy] at h
    split_ifs at h
    · cases h; exact ⟨.inl rfl, .inl rfl⟩
    · cases h; exact ⟨.inr rfl, .inl rfl⟩
  | mod =>
    simp only [aluResult, moduloBy, Config.divOverflowPolicy] at h
    split_ifs at h
    · cases h; exact ⟨.inl rfl, .inr rfl⟩
    · cases h; exact ⟨.inr rfl, .inr rfl⟩
  | _ => cases h

/-! ### The failures of the families -/

section

variable {rA rB : RegId} {a b : Fin 15}

theorem exists_regIndex_of_present {r : RegId} (h : present r = true) : ∃ i, regIndex r = some i :=
  exists_regIndex r ((present_iff r).1 h)

/-- With its operands present an arithmetic instruction fails only as its operation does (R113). -/
theorem aluResult_eq_error_of_exec_fault {op : AluOp} (ha : regIndex rA = some a) (hb : regIndex rB = some b)
    (h : exec (op.instr rA rB) s = .fault f) : aluResult op (s.reg b) (s.reg a) = .error f := by
  rw [exec_aluInstr, arithmetic, withReg_of_regIndex _ _ _ ha, withReg_of_regIndex _ _ _ hb] at h
  split at h
  next => cases h
  next g hg => cases h; exact hg

theorem exec_aluInstr_fault {op : AluOp} (ha : regIndex rA = some a) (hb : regIndex rB = some b)
    (h : exec (op.instr rA rB) s = .fault f) :
    (f = .divZero ∨ f = .divOverflow) ∧ (op.instr rA rB = .divq rA rB ∨ op.instr rA rB = .modq rA rB) := by
  obtain ⟨hf, rfl | rfl⟩ := aluResult_eq_error (aluResult_eq_error_of_exec_fault ha hb h)
  · exact ⟨hf, .inl rfl⟩
  · exact ⟨hf, .inr rfl⟩

theorem exec_rmmovq_fault {d : Word} (ha : regIndex rA = some a) (hb : regIndex rB = some b)
    (h : exec (.rmmovq rA rB d) s = .fault f) : f = .memWriteOob := by
  rw [exec_rmmovq_of_regIndex s d ha hb] at h
  exact eq_memWriteOob_of_storingQuad_fault (fun _ => fallThrough_ne_fault _ _ _) h

theorem exec_mrmovq_fault {d : Word} (ha : regIndex rA = some a) (hb : regIndex rB = some b)
    (h : exec (.mrmovq rA rB d) s = .fault f) : f = .memReadOob := by
  rw [exec_mrmovq_of_regIndex s d ha hb] at h
  exact eq_memReadOob_of_withQuad_fault (fun _ => fallThrough_ne_fault _ _ _) h

theorem exec_call_fault {c : Word} (h : exec (.call c) s = .fault f) : f = .memWriteOob := by
  refine eq_memWriteOob_of_storingQuad_fault (fun t => ?_) h
  nofun

theorem exec_ret_fault (h : exec .ret s = .fault f) : f = .memReadOob := by
  refine eq_memReadOob_of_withQuad_fault (fun v => ?_) h
  nofun

theorem exec_pushq_fault (ha : regIndex rA = some a) (h : exec (.pushq rA) s = .fault f) : f = .memWriteOob := by
  rw [exec_pushq_of_regIndex s ha] at h
  exact eq_memWriteOob_of_storingQuad_fault (fun _ => fallThrough_ne_fault _ _ _) h

theorem exec_popq_fault (ha : regIndex rA = some a) (h : exec (.popq rA) s = .fault f) : f = .memReadOob := by
  rw [exec_popq_of_regIndex s ha] at h
  refine eq_memReadOob_of_withQuad_fault (fun v => ?_) h
  split
  · exact fallThrough_ne_fault _ _ _
  · exact fallThrough_ne_fault _ _ _

end

end

/-- Settles O44: with present operands each instruction of the opcode map completes, or fails as the one shared
operation that it uses. -/
theorem failuresComeOnlyFromTheirInstructions : Obligations.FailuresComeOnlyFromTheirInstructions := by
  intro i s f hwf h
  obtain ⟨_, _, hmap⟩ := exists_opcodeMap s.pc i hwf
  cases hmap with
  | halt => cases h
  | nop => cases h
  | move p hA hB =>
    obtain ⟨a, ha⟩ := exists_regIndex_of_present hA
    obtain ⟨b, hb⟩ := exists_regIndex_of_present hB
    rw [exec_move_of_regIndex s p ha hb] at h
    cases h
  | irmovq v hB =>
    obtain ⟨b, hb⟩ := exists_regIndex_of_present hB
    rw [exec_irmovq_of_regIndex s v hb] at h
    cases h
  | rmmovq d hA hB =>
    obtain ⟨a, ha⟩ := exists_regIndex_of_present hA
    obtain ⟨b, hb⟩ := exists_regIndex_of_present hB
    exact .inr (.inl ⟨exec_rmmovq_fault ha hb h, .inl ⟨_, _, d, rfl⟩⟩)
  | mrmovq d hA hB =>
    obtain ⟨a, ha⟩ := exists_regIndex_of_present hA
    obtain ⟨b, hb⟩ := exists_regIndex_of_present hB
    exact .inl ⟨exec_mrmovq_fault ha hb h, .inl ⟨_, _, d, rfl⟩⟩
  | arithmetic op hA hB =>
    obtain ⟨a, ha⟩ := exists_regIndex_of_present hA
    obtain ⟨b, hb⟩ := exists_regIndex_of_present hB
    obtain ⟨hf, hi⟩ := exec_aluInstr_fault ha hb h
    exact .inr (.inr ⟨hf, _, _, hi⟩)
  | jump p c =>
    rw [exec_jump] at h
    cases h
  | call c => exact .inr (.inl ⟨exec_call_fault h, .inr (.inl ⟨c, rfl⟩)⟩)
  | ret => exact .inl ⟨exec_ret_fault h, .inr (.inl rfl)⟩
  | pushq hA =>
    obtain ⟨a, ha⟩ := exists_regIndex_of_present hA
    exact .inr (.inl ⟨exec_pushq_fault ha h, .inr (.inr ⟨_, rfl⟩)⟩)
  | popq hA =>
    obtain ⟨a, ha⟩ := exists_regIndex_of_present hA
    exact .inl ⟨exec_popq_fault ha h, .inr (.inr ⟨_, rfl⟩)⟩

end Sys2Proof.Machine
end

section
/-!
PROOF. The start of a session and what follows from the values it leaves: when a boot succeeds, the pushes that a stack
pointer near 0 cannot make, and STEP on the cached instruction (R170, R171, R174, R180).
-/

namespace Sys2Proof.Machine

open Sys2Proof Sys2Proof.Safety

/-! ### The start of a session -/

section

variable {m : Memory} {start : Option Word}

/-- Both of the model's LoadErrors for a supplied image have the offset outside it: every offset is outside an empty
image (R171, R176). -/
theorem exists_boot_image_eq_error (h : m.size ≤ (start.getD Config.startPc).toNat) :
    ∃ e, boot (.image m start) = .error e := by
  by_cases hempty : m.size = 0
  · exact ⟨.emptyImage, by simp only [boot, if_pos hempty]⟩
  · exact ⟨.startOutOfRange, by simp only [boot, if_neg hempty, if_pos h]⟩

/-- An offset inside the image starts the session there (R170, R171). -/
theorem boot_image_of_lt_size (h : (start.getD Config.startPc).toNat < m.size) :
    boot (.image m start) = .ok (State.sessionStart m (start.getD Config.startPc)) := by
  have hnonempty : m.size ≠ 0 := Nat.ne_zero_of_lt h
  simp only [boot, if_neg hnonempty, if_neg (Nat.not_le_of_lt h)]

end

/-- Settles O10: the boot's outcome turns on the offset's place in the image, and a success is a session start. -/
theorem sessionStartsAtTheSuppliedOffsetOrNotAtAll : Obligations.SessionStartsAtTheSuppliedOffsetOrNotAtAll :=
  fun _ _ => ⟨exists_boot_image_eq_error, fun hin => ⟨_, boot_image_of_lt_size hin, rfl, rfl⟩⟩

/-! ### A stack pointer near 0 -/

/-- Eight below a stack pointer under 8 the address wraps to one of the last eight, and a quad there reaches past every
image of a length below 2^64 (R8, R174). -/
theorem size_le_pushAddress_add_seven {s : State} (hsize : s.mem.size < 2 ^ 64) (hsp : s.sp.toNat < 8) :
    s.mem.size ≤ (pushAddress s).toNat + 7 := by
  have hwrap : (pushAddress s).toNat = 2 ^ 64 - 8 + s.sp.toNat := by
    unfold pushAddress
    bv_omega
  omega

/-- Settles O31: call and push write at the wrapped address, where each fails as its own rule says (O24, O26). -/
theorem stackPointerBelowEightCannotPush : Obligations.StackPointerBelowEightCannotPush := by
  intro s rA target hsize hsp hA
  have hout : s.mem.size ≤ (pushAddress s).toNat + 7 := size_le_pushAddress_add_seven hsize hsp
  obtain ⟨a, ha⟩ := exists_regIndex rA hA
  obtain ⟨-, -, hcall⟩ := callPushesTheFallThroughAddress target s
  obtain ⟨-, -, hpush⟩ :=
    pushqStoresTheRegisterBelowTheStackPointer rA s (s.reg a) (State.readReg_of_regIndex s rA a ha)
  exact ⟨hcall hout, hpush hout⟩

/-! ### STEP -/

/-- STEP reports how the execution of the cached instruction ended (R151). -/
theorem commandStep_of_executeCached {s t : State} {f : Option Fault} (h : executeCached s = (t, f)) :
    commandStep s = (t, .stepped f) := by
  rw [commandStep, h]

/-- Settles O46: the execution of a coherent cached instruction succeeds or fails as the step does, so the outcome of
the step tells which of the two it was. -/
theorem hostStepIsTheMachinesStep : Obligations.HostStepIsTheMachinesStep := by
  intro s hc
  rcases hexec : executeCached s with ⟨u, failure⟩
  have hcommand : commandStep s = (u, .stepped failure) := commandStep_of_executeCached hexec
  cases failure with
  | none =>
    have hstep : step s = .next u := step_of_executeCached_none hc hexec
    constructor
    · intro t ht
      cases hstep.symm.trans ht
      exact hcommand
    · intro f hf
      cases hstep.symm.trans hf
  | some g =>
    obtain ⟨rfl, hstep⟩ := step_of_executeCached_some hc hexec
    constructor
    · intro t ht
      cases hstep.symm.trans ht
    · intro f hf
      cases hstep.symm.trans hf
      exact hcommand

end Sys2Proof.Machine
end

section
/-!
PROOF. The Decoder and the encoder as inverses: the encoding of a well-formed instruction decodes to it, and bytes that
decode begin with the encoding of the instruction that they decode to (R66, R71 to R73, R80, R82).
-/

namespace Sys2Proof

open Sys2Proof.Safety

/-! ### From the instruction to its bytes -/

/-- Settles O2: the encoding of every instruction of the opcode map decodes to it. -/
theorem everyWellFormedInstructionDecodesFromItsEncoding :
    Obligations.EveryWellFormedInstructionDecodesFromItsEncoding := by
  intro i rest hwf
  obtain ⟨_, _, hmap⟩ := exists_opcodeMap 0 i hwf
  exact hmap.encodes rest

theorem encodes_of_encode_eq {bytes : List Byte} {i : Instr} (h : i.wellFormed = true ∧ encode i = bytes) :
    Encodes bytes i := by
  obtain ⟨hwf, rfl⟩ := h
  exact fun rest => everyWellFormedInstructionDecodesFromItsEncoding i rest hwf

/-- Settles O1: each of the twelve words is the encoding of its instruction, so O2 applies. -/
theorem writtenOutWordsDecodeToTheirInstructions : Obligations.WrittenOutWordsDecodeToTheirInstructions := by
  and_intros <;> exact encodes_of_encode_eq (by decide)

/-! ### The bytes that a record was read from -/

/-- The register byte of a record of the class `c`, where the class has one (R65). -/
def Record.regBytes (r : Record) (c : OpClass) : List Byte := if c.hasRegByte then [r.rA ++ r.rB] else []

/-- The constant of a record of the class `c`, where the class has one (R67). -/
def Record.constBytes (r : Record) (c : OpClass) : List Byte := if c.hasConst then bytesOfQuad r.valC else []

/-- The bytes that a record of the class `c` was read from (R66). -/
def Record.bytes (r : Record) (c : OpClass) : List Byte :=
  (r.icode ++ r.ifun) :: (r.regBytes c ++ r.constBytes c)

/-- What follows the opcode byte is the register byte, if the class has one, and what stands at the constant's place
(R65, R67). -/
theorem Record.withRegByte_bytes {i i2 : Record} {c : OpClass} {b0 : Byte} {rest : List Byte}
    (h : i.withRegByte c (b0 :: rest) = some i2) : rest = i2.regBytes c ++ (b0 :: rest).drop c.constOffset := by
  unfold Record.withRegByte at h
  unfold Record.regBytes OpClass.constOffset
  split at h
  next hreg =>
    obtain ⟨b1, hb1, rfl⟩ := Option.map_eq_some_iff.1 h
    obtain ⟨tail, rfl⟩ : ∃ tail, rest = b1 :: tail := by
      cases rest with
      | nil => cases hb1
      | cons b tail => cases hb1; exact ⟨tail, rfl⟩
    simp [hreg, highNibble_append_lowNibble]
  next hreg => simp [hreg]

/-- What stands at the constant's place begins with the constant, if the class has one, and reading it leaves the
register byte's fields (R67). -/
theorem Record.withConst_bytes {i i3 : Record} {c : OpClass} {bs : List Byte}
    (h : i.withConst c bs = some i3) :
    i3.regBytes c = i.regBytes c ∧ ∃ tail, bs.drop c.constOffset = i3.constBytes c ++ tail := by
  unfold Record.withConst at h
  unfold Record.constBytes
  split at h
  next hconst =>
    obtain ⟨v, hv, rfl⟩ := Option.map_eq_some_iff.1 h
    refine ⟨rfl, ?_⟩
    rw [if_pos hconst]
    exact eq_bytesOfQuad_of_quadOfList _ v hv
  next hconst =>
    cases h
    exact ⟨rfl, _, by rw [if_neg hconst]; rfl⟩

theorem Record.legal_of_instrOfDecoded_verdict {r : Record} {c : OpClass} {i : Instr}
    (h : instrOfDecoded r (r.verdict c) = .ok i) : r.legal = true := by
  unfold Record.verdict at h
  split at h
  next hlegal => exact hlegal
  next => cases h

theorem Record.instr_of_instrOfDecoded {r : Record} {st : Status} {i : Instr}
    (h : instrOfDecoded r st = .ok i) : r.instr = some i := by
  unfold instrOfDecoded at h
  split at h
  · cases h
  · cases h
  all_goals
    split at h
    next j hj => cases h; exact hj
    next => cases h

/-- Bytes that decode are those of a legal record of a known class, which stands for the instruction (R73). -/
theorem exists_legal_record_of_decode {bs : List Byte} {i : Instr} (h : decode bs = .ok i) :
    ∃ (c : OpClass) (r : Record) (tail : List Byte),
      bs = r.bytes c ++ tail ∧ r.icode = c.code ∧ r.legal = true ∧ r.instr = some i := by
  cases bs with
  | nil => cases h
  | cons b0 rest =>
    rw [decode] at h
    cases hclass : OpClass.ofCode (highNibble b0) with
    | none => rw [decodeRecord_of_ofCode_none 0 rest hclass] at h; cases h
    | some c =>
      obtain ⟨hcode, hfun⟩ := decodeRecord_opcode 0 b0 rest
      rw [decodeRecord_of_ofCode_some 0 rest hclass] at h hcode hfun
      obtain ⟨-, hd⟩ | ⟨_, -, -, hd⟩ | ⟨i2, i3, hreg, hconst, hd⟩ := decodeClass_cases c _ (b0 :: rest)
      · rw [hd] at h; cases h
      · rw [hd] at h; cases h
      · rw [hd] at h hcode hfun
        obtain ⟨hregBytes, tail, htail⟩ := Record.withConst_bytes hconst
        refine ⟨c, i3, tail, ?_, ?_, Record.legal_of_instrOfDecoded_verdict h, Record.instr_of_instrOfDecoded h⟩
        · rw [Record.bytes, hcode, hfun, highNibble_append_lowNibble, hregBytes, List.cons_append,
            List.append_assoc, ← htail, ← Record.withRegByte_bytes hreg]
        · rw [OpClass.code_of_ofCode _ c hclass]
          exact hcode

/-! ### From a legal record to the instruction -/

/-- The only identifier that is not present is the none identifier (R21, R71). -/
theorem eq_noReg_of_absent {r : RegId} (h : present r = false) : r = noReg := by
  simpa [present] using h

theorem wellFormed_move (p : Predicate) {rA rB : RegId} (hA : present rA = true) (hB : present rB = true) :
    (p.move rA rB).wellFormed = true := by
  have hwf : (p.move rA rB).wellFormed = (cmovCodeLegal p.code && present rA && present rB) := by cases p <;> rfl
  rw [hwf, cmovCodeLegal_code, hA, hB]
  rfl

theorem wellFormed_aluInstr (op : AluOp) (rA rB : RegId) :
    (op.instr rA rB).wellFormed = (present rA && present rB) := by cases op <;> rfl

theorem wellFormed_jump (p : Predicate) (t : Word) : (p.jump t).wellFormed = true := by cases p <;> rfl

/-- A legal record stands for a well-formed instruction, whose encoding is the bytes that the record was read from: the
fields that the instruction does not hold are the ones that its class fixes (R71, R72, R82). -/
theorem Record.wellFormed_and_encode_of_legal {r : Record} {c : OpClass} {i : Instr} (hcode : r.icode = c.code)
    (hlegal : r.legal = true) (hinstr : r.instr = some i) : i.wellFormed = true ∧ encode i = r.bytes c := by
  obtain ⟨icode, f, rA, rB, v, valP, addr⟩ := r
  obtain rfl : icode = c.code := hcode
  simp only [Record.legal, OpClass.ofCode_code] at hlegal
  simp only [Record.instr, OpClass.ofCode_code] at hinstr
  cases c <;> simp only [Bool.and_eq_true, beq_iff_eq, Bool.not_eq_true'] at hlegal
  case halt | nop | call | ret =>
    cases hinstr
    obtain rfl := hlegal
    exact ⟨rfl, rfl⟩
  case cmov =>
    obtain ⟨⟨-, hA⟩, hB⟩ := hlegal
    obtain ⟨p, hp, rfl⟩ := Option.map_eq_some_iff.1 hinstr
    obtain rfl := Predicate.code_of_ofCode f p hp
    exact ⟨wellFormed_move p hA hB, encode_move p rA rB⟩
  case irmov =>
    cases hinstr
    obtain ⟨⟨rfl, hA⟩, hB⟩ := hlegal
    obtain rfl := eq_noReg_of_absent hA
    exact ⟨hB, rfl⟩
  case rmmov | mrmov =>
    cases hinstr
    obtain ⟨⟨rfl, hA⟩, hB⟩ := hlegal
    exact ⟨Bool.and_eq_true_iff.2 ⟨hA, hB⟩, rfl⟩
  case opq =>
    obtain ⟨⟨-, hA⟩, hB⟩ := hlegal
    obtain ⟨op, hop, rfl⟩ := Option.map_eq_some_iff.1 hinstr
    obtain rfl := AluOp.code_of_ofCode f op hop
    exact ⟨by rw [wellFormed_aluInstr, hA, hB]; rfl, encode_aluInstr op rA rB⟩
  case jump =>
    obtain ⟨p, hp, rfl⟩ := Option.map_eq_some_iff.1 hinstr
    obtain rfl := Predicate.code_of_ofCode f p hp
    exact ⟨wellFormed_jump p v, encode_jump p v⟩
  case push | pop =>
    cases hinstr
    obtain ⟨⟨rfl, hA⟩, hB⟩ := hlegal
    obtain rfl := eq_noReg_of_absent hB
    exact ⟨hA, rfl⟩

/-- Settles O3: the bytes are those of a legal record, and the record's bytes are the instruction's encoding. -/
theorem decodingYieldsOnlyWellFormedInstructionsFromTheirOwnEncoding :
    Obligations.DecodingYieldsOnlyWellFormedInstructionsFromTheirOwnEncoding := by
  intro bs i h
  obtain ⟨c, r, tail, hbytes, hcode, hlegal, hinstr⟩ := exists_legal_record_of_decode h
  obtain ⟨hwf, hencode⟩ := Record.wellFormed_and_encode_of_legal hcode hlegal hinstr
  exact ⟨hwf, tail, by rw [hencode, hbytes]⟩

end Sys2Proof
end

section
/-!
PROOF. Instructions that are not well formed: each has an absent operand, and the first one that is read ends it
(R21, R71, R135).
-/

namespace Sys2Proof.Machine

open Sys2Proof

section

variable {rA rB : RegId} {s : State}

theorem withReg_of_absent {r : RegId} (k : Fin 15 → Outcome) (h : present r = false) :
    withReg r k = .fault .notExecutable := by
  obtain rfl := eq_noReg_of_absent h
  exact withReg_noReg k

/-- Whichever of the two operands is absent, and whatever the rest of the instruction is (R21). -/
theorem withReg_withReg_of_absent (k : Fin 15 → Fin 15 → Outcome) (h : (present rA && present rB) = false) :
    (withReg rA fun a => withReg rB fun b => k a b) = .fault .notExecutable := by
  cases hA : present rA with
  | false => exact withReg_of_absent _ hA
  | true =>
    have hB : present rB = false := by simpa [hA] using h
    obtain ⟨a, ha⟩ := exists_regIndex_of_present hA
    rw [withReg_of_regIndex _ _ a ha]
    exact withReg_of_absent _ hB

theorem conditionalMove_of_illFormed (p : Predicate)
    (h : (cmovCodeLegal p.code && present rA && present rB) = false) :
    conditionalMove p rA rB s = .fault .notExecutable := by
  rw [cmovCodeLegal_code, Bool.true_and] at h
  rw [conditionalMove, if_pos (cmovCodeLegal_code p)]
  exact withReg_withReg_of_absent _ h

theorem arithmetic_of_illFormed (op : AluOp) (h : (present rA && present rB) = false) :
    arithmetic op rA rB s = .fault .notExecutable :=
  withReg_withReg_of_absent _ h

end

/-- Settles O13: each instruction reads its required operands before it does anything else. -/
theorem illFormedInstructionsFail : Obligations.IllFormedInstructionsFail := by
  intro i s h
  cases i with
  | halt | nop | jmp | jle | jl | je | jne | jge | jg | call | ret => cases h
  | rrmovq => exact conditionalMove_of_illFormed .always h
  | cmovle => exact conditionalMove_of_illFormed .le h
  | cmovl => exact conditionalMove_of_illFormed .lt h
  | cmove => exact conditionalMove_of_illFormed .eq h
  | cmovne => exact conditionalMove_of_illFormed .ne h
  | cmovge => exact conditionalMove_of_illFormed .ge h
  | cmovg => exact conditionalMove_of_illFormed .gt h
  | irmovq => exact withReg_of_absent _ h
  | rmmovq => exact withReg_withReg_of_absent _ h
  | mrmovq => exact withReg_withReg_of_absent _ h
  | addq => exact arithmetic_of_illFormed .add h
  | subq => exact arithmetic_of_illFormed .sub h
  | andq => exact arithmetic_of_illFormed .and h
  | xorq => exact arithmetic_of_illFormed .xor h
  | mulq => exact arithmetic_of_illFormed .mul h
  | divq => exact arithmetic_of_illFormed .div h
  | modq => exact arithmetic_of_illFormed .mod h
  | pushq => exact withReg_of_absent _ h
  | popq => exact withReg_of_absent _ h

end Sys2Proof.Machine
end
